-- ==== Sys2Proof/Word.lean ====
section
/-! DEFINITION. The values of PTG (00_scope.md R11): bytes, byte strings, character codes, texts, bit sequences, the
command word and the value of the clock port. Index 0 of a sequence is its leftmost element (20_memory.md R51, R53). -/

namespace Sys2Proof

/-- `Byte` of R11: an integer 0..255. -/
abbrev Byte := BitVec 8

/-- `Bytes` of R11: a finite sequence of bytes, index 0 leftmost; its length is part of the value. -/
abbrev Bytes := List Byte

/-- `Char` of R11: an 8-bit character code at a text port (20_memory.md R56). -/
abbrev CharCode := BitVec 8

/-- `Text` of R11: a finite sequence of character codes, first character at index 0. -/
abbrev Text := List CharCode

/-- `Bits` of R11: a finite sequence of bits, `true` for 1. -/
abbrev Bits := List Bool

/-- The command word of 30_encoding.md R70. -/
abbrev CmdWord := BitVec 16

/-- A value on the port `NOW`, `TIME_BITS` = 63 bits (10_state.md R31). -/
abbrev Time := BitVec 63

end Sys2Proof
end

