-- ==== Sys2Proof/Syntax.lean ====
section
/-! DEFINITION. The thirteen operations of PTG (30_encoding.md R72), one constructor for each row of the opcode table.
An operation's operand registers are fixed by the operation (10_state.md R26); the only operands in the word are those
of R73. -/

namespace Sys2Proof

/-- The register `NORMID` reads, its `arg` (30_encoding.md R73): 0 is `UID`, 1 is `APP`. -/
inductive IdSel where
  | uid
  | app
deriving DecidableEq, Repr

/-- One operation with its immediate operand, if it has one. -/
inductive Instr where
  /-- `NORMID`: normalise an identifier (41_field_encoder.md R95). -/
  | normid (sel : IdSel)
  /-- `DECKEY`: decode the key text and offer it to the DES unit (41_field_encoder.md R98). -/
  | deckey
  /-- `ENCR`: encrypt one block (42_block_cipher.md R115). -/
  | encr
  /-- `XORV`: variable-length XOR (43_bitops.md R121). -/
  | xorv
  /-- `BITS`: expand a buffer into bits (43_bitops.md R123). -/
  | bits
  /-- `TENC`: encode the current time (44_orchestrator.md R132). -/
  | tenc
  /-- `TMIX`: mix the current time into a 4-byte value (44_orchestrator.md R133). -/
  | tmix
  /-- `TPAD`: build the time-coder padding (45_time_coder.md R155). -/
  | tpad
  /-- `PERM`: permute two bytes with the table of a round, 0..255 (45_time_coder.md R153). -/
  | perm (round : BitVec 8)
  /-- `TCODE`: run the time coder (45_time_coder.md R157). -/
  | tcode
  /-- `XLATC`: translate the window that begins at `start`, 1-indexed (46_translator.md R172). -/
  | xlatc (start : BitVec 8)
  /-- `XLAT`: translate a 4-byte value into 8 characters (46_translator.md R174). -/
  | xlat
  /-- `GEN`: derive a PassTicket (44_orchestrator.md R135). -/
  | gen
deriving DecidableEq, Repr

end Sys2Proof
end

