-- ==== Sys2Proof/WellFormed.lean ====
section
/-! DEFINITION. Which operations have an encoding (30_encoding.md R73). The only operand value that no word carries is
`start` = 0 of `XLATC`, which is reserved. -/

namespace Sys2Proof

/-- The operand values R73 allows: any selector of `NORMID`, any round of `PERM`, a nonzero `start` of `XLATC`. -/
def Instr.wellFormed : Instr → Bool
  | .normid _ => true
  | .deckey => true
  | .encr => true
  | .xorv => true
  | .bits => true
  | .tenc => true
  | .tmix => true
  | .tpad => true
  | .perm _ => true
  | .tcode => true
  | .xlatc start => start != 0
  | .xlat => true
  | .gen => true

end Sys2Proof
end

