-- ==== Sys2Proof/Decode.lean ====
section
/-! DEFINITION. The command word: decoding (30_encoding.md R70, R71, R73 to R75), total on every 16-bit word and
rejecting by name, and the encoder written from the same map (R72, R73, R79). -/

namespace Sys2Proof

/-- Why a command word selects no operation: `RESERVED_OPCODE` (R74) or `RESERVED_ARG` (R75). -/
inductive DecodeError where
  | reservedOpcode
  | reservedArg
deriving DecidableEq, Repr

/-- `op` = `w[15:8]` (R70). -/
def opField (w : CmdWord) : BitVec 8 := w.extractLsb' 8 8

/-- `arg` = `w[7:0]`, unsigned (R70). -/
def argField (w : CmdWord) : BitVec 8 := w.extractLsb' 0 8

/-- The word with the two fields `op` and `arg` (R70). -/
def wordOf (op arg : BitVec 8) : CmdWord := op ++ arg

/-- An operation that takes no operand: `arg` must be 0 (R73, last row). -/
def decodeBare (i : Instr) (arg : BitVec 8) : Except DecodeError Instr :=
  if arg = 0 then .ok i else .error .reservedArg

/-- `NORMID`: `arg` 0 or 1 (R73). -/
def decodeNormid (arg : BitVec 8) : Except DecodeError Instr :=
  if arg = 0 then .ok (.normid .uid) else if arg = 1 then .ok (.normid .app) else .error .reservedArg

/-- `XLATC`: `arg` 1..255 (R73). -/
def decodeXlatc (arg : BitVec 8) : Except DecodeError Instr :=
  if arg = 0 then .error .reservedArg else .ok (.xlatc arg)

/-- Decoding a command word (R71): the check of `op` comes first (R75). -/
def decode (w : CmdWord) : Except DecodeError Instr :=
  let arg := argField w
  match (opField w).toNat with
  | 0x01 => decodeNormid arg
  | 0x02 => decodeBare .deckey arg
  | 0x03 => decodeBare .encr arg
  | 0x04 => decodeBare .xorv arg
  | 0x05 => decodeBare .bits arg
  | 0x06 => decodeBare .tenc arg
  | 0x07 => decodeBare .tmix arg
  | 0x08 => decodeBare .tpad arg
  | 0x09 => .ok (.perm arg)
  | 0x0A => decodeBare .tcode arg
  | 0x0B => decodeXlatc arg
  | 0x0C => decodeBare .xlat arg
  | 0x0D => decodeBare .gen arg
  | _ => .error .reservedOpcode

/-- The operation code of an operation (R72). -/
def opOf : Instr → BitVec 8
  | .normid _ => 0x01
  | .deckey => 0x02
  | .encr => 0x03
  | .xorv => 0x04
  | .bits => 0x05
  | .tenc => 0x06
  | .tmix => 0x07
  | .tpad => 0x08
  | .perm _ => 0x09
  | .tcode => 0x0A
  | .xlatc _ => 0x0B
  | .xlat => 0x0C
  | .gen => 0x0D

/-- The immediate of an operation (R73). -/
def argOf : Instr → BitVec 8
  | .normid .uid => 0
  | .normid .app => 1
  | .deckey => 0
  | .encr => 0
  | .xorv => 0
  | .bits => 0
  | .tenc => 0
  | .tmix => 0
  | .tpad => 0
  | .perm round => round
  | .tcode => 0
  | .xlatc start => start
  | .xlat => 0
  | .gen => 0

/-- The command word of an operation (R72, R79). -/
def encode (i : Instr) : CmdWord := wordOf (opOf i) (argOf i)

/-- The operation the decoder reads from the word whose low `nbits` bits are those of `w`. The command word is one
16-bit value with no byte order of its own (R70; log 17), so a value that does not fit it is no command word. -/
def decodeTableWord (nbits w : Nat) : Option Instr :=
  let v := w % 2 ^ nbits
  if v < 2 ^ 16 then
    match decode (BitVec.ofNat 16 v) with
    | .ok i => some i
    | .error _ => none
  else none

end Sys2Proof
end

