-- ==== Sys2Proof/Config.lean ====
section
/-! DEFINITION. What is fixed when PTG is built into a platform: the constants of 00_scope.md R9 and R10, the contract of
the DES port (42_block_cipher.md R110 to R112) with an external unit of which nothing is assumed, and the parameters that
the spec gives more than one value. -/

namespace Sys2Proof.Config

/-- `TXT_MAX` (R10): characters in a text register (log 8). -/
def txtMax : Nat := 64

/-- `BUF_MAX` (R10): bytes in `OPA`, `OPB`, `KEY` (log 8). -/
def bufMax : Nat := 16

/-- `RES_MAX` (R10): bytes in `RES`, 8 × `BUF_MAX`. -/
def resMax : Nat := 8 * bufMax

/-- `FIELD_LEN` (R9): bytes in an encoded identifier. -/
def fieldLen : Nat := 8

/-- `FIELD_PAD` (R9): the pad byte of a field. -/
def fieldPad : Byte := 0x40

/-- `KEYHEX_LEN` (R9): characters of the key text once whitespace is removed. -/
def keyHexLen : Nat := 16

/-- `BLOCK_LEN` and `KEY_LEN` (R9): bytes in a DES block and in a DES key. -/
def blockLen : Nat := 8

/-- `R3_LEN`, `R4_LEN`, `R5_LEN` (R9): bytes in Result3, Result4, Result5. -/
def resultLen : Nat := 4

/-- `HALF_LEN` (R9): bytes in `L`, `R`, `D`, `E` of the time coder. -/
def halfLen : Nat := 2

/-- `PAD_LEN` (R9): bytes in the padding buffer of the time coder. -/
def padLen : Nat := 12

/-- `PAD_FILL` (R9): the filler byte of the padding buffer. -/
def padFill : Byte := 0x55

/-- The answer to `DES_KS(k)` (R110). -/
inductive KsAnswer where
  | ok
  | fail (code : Byte)
deriving DecidableEq, Repr, Inhabited

/-- The answer to `DES_E(k, b)` (R111): the ciphertext is always 8 bytes (log 6). -/
inductive EncAnswer where
  | ok (c : Vector Byte 8)
  | fail (code : Byte)
deriving DecidableEq, Repr, Inhabited

/-- `DES_KS` of the external DES unit: a pure function (R112), nothing else assumed (93 U5; log 5). -/
opaque externalKs : Bytes → KsAnswer

/-- `DES_E` of the external DES unit: a pure function (R112), nothing else assumed (93 U5; log 5). -/
opaque externalEnc : Bytes → Bytes → EncAnswer

/-- Which DES unit stands behind the port (log 7). The spec runs its vectors with the last three. -/
inductive DesUnit where
  /-- A unit of which only R110 to R112 are known. -/
  | external
  /-- `STD`: the standard DES of 47_des_reference.md (R185; log 20). -/
  | standard
  /-- `STUB` of 95_test_vectors.md: rotate left one byte, XOR with the key (log 24). -/
  | stub
  /-- `STUB_REJ` of 95_test_vectors.md: `STUB` with one rejected key and one rejected first byte (log 24). -/
  | stubRej
deriving DecidableEq, Repr

/-- `TIME_WIDE_POLICY` (R10, 44_orchestrator.md R131). -/
inductive TimeWidePolicy where
  | low4
  | fault
deriving DecidableEq, Repr

/-- The parameters of R10 that the spec gives more than one value (log 7). -/
structure Platform where
  /-- `CP_EXT` (41_field_encoder.md R91): pairs of a character code and its byte, looked up after `CP`. -/
  cpExt : List (CharCode × Byte)
  /-- `TIME_WIDE_POLICY` (44_orchestrator.md R131). -/
  timeWide : TimeWidePolicy
  /-- The DES unit behind the port (42_block_cipher.md R112). -/
  des : DesUnit
deriving DecidableEq, Repr

end Sys2Proof.Config
end

