-- ==== Sys2Proof/Machine/Tables.lean ====
section
/-! DEFINITION. The constant tables of PTG (10_state.md R30): code page, whitespace set, permutation tables, window
starts, and the decided platform of 00_scope.md R10. -/

namespace Sys2Proof.Machine

open Sys2Proof.Config

/-- `WS` (00_scope.md R10, 41_field_encoder.md R93): tab, line feed, vertical tab, form feed, carriage return, space
(log 8). -/
def wsSet : List CharCode := [0x09, 0x0A, 0x0B, 0x0C, 0x0D, 0x20]

/-- `CP` (41_field_encoder.md R90), by its formulas: space, `A`..`I`, `J`..`R`, `S`..`Z`, `0`..`9` (log 19). -/
def cp (c : CharCode) : Option Byte :=
  if c = 0x20 then some 0x40
  else if 0x41 ≤ c ∧ c ≤ 0x49 then some (0xC1 + (c - 0x41))
  else if 0x4A ≤ c ∧ c ≤ 0x52 then some (0xD1 + (c - 0x4A))
  else if 0x53 ≤ c ∧ c ≤ 0x5A then some (0xE2 + (c - 0x53))
  else if 0x30 ≤ c ∧ c ≤ 0x39 then some (0xF0 + (c - 0x30))
  else none

/-- `n` pairs of consecutive codes, from character `c` and byte `b` on. -/
def codeRun (c : CharCode) (b : Byte) (n : Nat) : List (CharCode × Byte) :=
  (List.range n).map fun k => (c + BitVec.ofNat 8 k, b + BitVec.ofNat 8 k)

/-- The default `CP_EXT` (41_field_encoder.md R91): `a`..`i`, `j`..`r`, `s`..`z` (log 19). -/
def lowerCase : List (CharCode × Byte) := codeRun 0x61 0x81 9 ++ codeRun 0x6A 0x91 9 ++ codeRun 0x73 0xA2 8

/-- `PERM[1..6]` (45_time_coder.md R151): the row of round `i`, entries 1-indexed; no row for another number
(log 18). -/
def permRow : Nat → Option (List Nat)
  | 1 => some [10, 2, 12, 4, 14, 6, 16, 8, 9, 1, 11, 3, 13, 5, 15, 7]
  | 2 => some [1, 10, 3, 12, 13, 16, 7, 15, 9, 2, 11, 4, 5, 14, 8, 6]
  | 3 => some [3, 10, 1, 12, 13, 16, 9, 15, 7, 2, 14, 4, 5, 11, 8, 6]
  | 4 => some [10, 4, 12, 2, 14, 8, 16, 6, 9, 1, 13, 3, 11, 5, 15, 7]
  | 5 => some [4, 10, 12, 1, 8, 16, 14, 5, 9, 2, 13, 3, 11, 7, 15, 6]
  | 6 => some [1, 16, 15, 14, 13, 12, 11, 10, 9, 8, 7, 6, 5, 4, 3, 2]
  | _ => none

/-- `STARTS` (46_translator.md R173): window starts of the eight output positions, 1-indexed. -/
def windowStarts : List Nat := [31, 3, 7, 11, 15, 19, 23, 27]

/-- `ALPHABET[n]` as a character code (46_translator.md R170): `A`..`Z`, then `0`..`9`. -/
def alphabet (n : Nat) : CharCode :=
  if n ≤ 25 then BitVec.ofNat 8 (0x41 + n) else BitVec.ofNat 8 (0x30 + (n - 26))

/-- The decided values of 00_scope.md R10, with an external DES unit (log 7). -/
def decidedPlatform : Platform := { cpExt := lowerCase, timeWide := .low4, des := .external }

end Sys2Proof.Machine
end

