-- ==== Sys2Proof/Machine/Buffers.lean ====
section
/-! DEFINITION. Sequence primitives (00_scope.md R12) and the order of bits and bytes inside a buffer (20_memory.md R51,
R52; 43_bitops.md R122, R124). -/

namespace Sys2Proof.Machine

/-- `rep(v, n)` (R12). -/
def rep {α : Type} (v : α) (n : Nat) : List α := List.replicate n v

/-- `left(b, n)` (R12): the first `n` elements. -/
def left {α : Type} (b : List α) (n : Nat) : List α := b.take n

/-- `right(b, n)` (R12): the last `n` elements. -/
def right {α : Type} (b : List α) (n : Nat) : List α := b.drop (b.length - n)

/-- The eight bits of a byte, most significant first (R52). -/
def byteBits (x : Byte) : Bits :=
  [x.getLsbD 7, x.getLsbD 6, x.getLsbD 5, x.getLsbD 4, x.getLsbD 3, x.getLsbD 2, x.getLsbD 1, x.getLsbD 0]

/-- `bitsOf(b)` (R122): eight bits for each byte, in byte order. -/
def bitsOf : Bytes → Bits
  | [] => []
  | x :: t => byteBits x ++ bitsOf t

/-- The value of a bit sequence, first bit most significant (R52, R124). -/
def bitsValue (v : Bits) : Nat := v.foldl (fun n b => 2 * n + b.toNat) 0

/-- `pack(v)` (R124): each group of eight bits makes one byte, first bit most significant. -/
def pack : Bits → Bytes
  | b0 :: b1 :: b2 :: b3 :: b4 :: b5 :: b6 :: b7 :: t =>
    BitVec.ofNat 8 (bitsValue [b0, b1, b2, b3, b4, b5, b6, b7]) :: pack t
  | _ => []

/-- The bit at a 1-indexed source position (00_scope.md R13). -/
def bitAt (v : Bits) (p : Nat) : Bool := v.getD (p - 1) false

/-- One output bit for each entry of a table of 1-indexed positions, taken from that position of the input
(45_time_coder.md R152, 47_des_reference.md R180). -/
def select (table : List Nat) (v : Bits) : Bits := table.map (bitAt v)

end Sys2Proof.Machine
end

