-- ==== Sys2Proof/Machine/State.lean ====
section
/-! DEFINITION. The state of PTG as plain data (10_state.md R20 to R36), what stands outside it in a run (the host's
pending transactions, the clock port, the platform's parameters), the ways a step can stop, and the state after reset. -/

namespace Sys2Proof.Machine

open Sys2Proof.Config

/-- The registers by name (30_encoding.md R76). -/
inductive Reg where
  | uid | app | khx | opa | opb | key | res | status | cause | deserr | now
deriving DecidableEq, Repr

/-- The value of a register as a host transaction moves it, whole (20_memory.md R55, 30_encoding.md R76). -/
inductive RegValue where
  /-- `Opt Text`: `none` is `absent` (R21). -/
  | text (t : Option Text)
  /-- `Bytes` with its length (R22 to R24). -/
  | bytes (b : Bytes)
  /-- An 8-bit status register (R27 to R29). -/
  | byte (b : Byte)
  /-- The value of the clock port (R31). -/
  | time (t : Time)
deriving DecidableEq, Repr

/-- What reaches PTG from outside, one at a time and each atomic (20_memory.md R55, R61; log 1). -/
inductive Event where
  /-- The host's `WR(n, v)` (R57). -/
  | wr (n : Nat) (v : RegValue)
  /-- The host's `RD(n)` (R58). -/
  | rd (n : Nat)
  /-- The host's `CMD(w)` (R59). -/
  | cmd (w : CmdWord)
  /-- Reset from outside (70_reset_and_hazards.md R220; log 13). -/
  | reset
  /-- The clock puts a value on `NOW` (10_state.md R31; log 4). -/
  | clock (t : Time)
deriving DecidableEq, Repr

/-- A request PTG makes of an external device (00_scope.md R16). -/
inductive Request where
  /-- `DES_KS(k)` (42_block_cipher.md R110). -/
  | desKs (k : Bytes)
  /-- `DES_E(k, b)` (42_block_cipher.md R111). -/
  | desE (k b : Bytes)
  /-- `sample(NOW)` (10_state.md R31). -/
  | sample
deriving DecidableEq, Repr

/-- The error kinds (60_exceptions.md R192). -/
inductive Kind where
  | invalidInput
  | cryptoError
  | algorithmError
  | illegal
deriving DecidableEq, Repr

/-- The causes (60_exceptions.md R192), in the order of its table. -/
inductive Cause where
  | idAbsent | idEmpty | idTooLong | keyAbsent | keyLength | keyNotHex
  | keyRejected | encryptFailed
  | tcInputLen | permInputLen | permRound | padUidLen
  | reservedOpcode | reservedArg | operandLength | operandAbsent | unmappableChar
deriving DecidableEq, Repr

/-- The text register an error is about, `STATUS.SRC` (10_state.md R28). -/
inductive Src where
  | none | uid | app | khx
deriving DecidableEq, Repr

/-- What an error carries (60_exceptions.md R191): its cause, the register concerned, the DES unit's code. -/
structure Err where
  cause : Cause
  src : Src
  code : Byte
deriving DecidableEq, Repr

/-- The buffers and counters that exist only while a command runs (10_state.md R32, R33). -/
structure Scratch where
  uidf : Bytes
  appf : Bytes
  kw : Bytes
  r1 : Bytes
  r2a : Bytes
  r2 : Bytes
  r3 : Bytes
  tb : Bytes
  r4 : Bytes
  padb : Bytes
  l : Bytes
  r : Bytes
  d : Bytes
  e : Bytes
  blk : Bytes
  r5 : Bytes
  /-- `STEP`: the orchestrator's step, 1..6; 0 when `GEN` is not running. -/
  step : Nat
  /-- `RND`: the time-coder round, 1..6, 7 after the last; 0 before the time coder begins (R33, 45_time_coder.md R158). -/
  rnd : Nat
deriving DecidableEq, Repr

/-- Scratch cleared to zero length (R32, R36). -/
def Scratch.cleared : Scratch :=
  { uidf := [], appf := [], kw := [], r1 := [], r2a := [], r2 := [], r3 := [], tb := [], r4 := [], padb := [],
    l := [], r := [], d := [], e := [], blk := [], r5 := [], step := 0, rnd := 0 }

/-- The state: PTG's registers and scratch, then the port `NOW`, then the model's own fields (log 1, 7, 11, 12). -/
structure State where
  /-- `UID`, register 0 (R21): the raw user id, `none` when `absent`. -/
  uid : Option Text
  /-- `APP`, register 1 (R21): the raw application name. -/
  app : Option Text
  /-- `KHX`, register 2 (R21): the raw key text. -/
  khx : Option Text
  /-- `OPA`, register 3 (R22): the first byte operand. -/
  opa : Bytes
  /-- `OPB`, register 4 (R22): the second byte operand. -/
  opb : Bytes
  /-- `KEY`, register 5 (R23): the key of the unit operations. -/
  key : Bytes
  /-- `RES`, register 6 (R24): the result. -/
  res : Bytes
  /-- `STATUS`, register 7 (R28): `KIND`, `VALID`, `SRC`. -/
  status : Byte
  /-- `CAUSE`, register 8 (R27). -/
  cause : Byte
  /-- `DESERR`, register 9 (R29). -/
  deserr : Byte
  /-- Scratch with `STEP` and `RND` (R32, R33). -/
  scratch : Scratch
  /-- The value on the port `NOW`, register 10 (R31); driven by the clock, not by PTG. -/
  now : Time
  /-- The model's own: the parameters PTG was built with (00_scope.md R10; log 7). -/
  plat : Platform
  /-- The model's own: what is still to come from outside, oldest first (log 1). -/
  inbox : List Event
  /-- The model's own: the value the last `RD` gave the host (R58; log 11). -/
  reply : Option RegValue
  /-- The model's own: the external requests of the last command, in order (R136; log 12). -/
  requests : List Request
deriving DecidableEq, Repr

/-- Faults. There is none: a command completes or raises, with no third outcome (60_exceptions.md R190), and raising is
a next state (R196). -/
inductive Fault where
deriving DecidableEq, Repr

/-- Refusals: the model stops, and says nothing of what the hardware does. -/
inductive Refusal where
  /-- An instruction without a meaning. Safe. No arm of `exec` answers with it. -/
  | notModelled (mnemonic : String)
  /-- Raised by a `WR` that is not well-formed (20_memory.md R57, 93 U9; log 10). Safe. -/
  | illFormedWrite (n : Nat)
  /-- Raised by an `RD` that is not well-formed (20_memory.md R58, 93 U9; log 10). Safe. -/
  | illFormedRead (n : Nat)
deriving DecidableEq, Repr

/-- The machine right after reset (10_state.md R36, 70_reset_and_hazards.md R220), with nothing pending (log 1), the
clock port at 0 (log 3) and the decided platform (log 7). -/
def State.reset : State :=
  { uid := none, app := none, khx := none, opa := [], opb := [], key := [], res := [],
    status := 0x00, cause := 0x00, deserr := 0x00, scratch := Scratch.cleared,
    now := 0, plat := decidedPlatform, inbox := [], reply := none, requests := [] }

end Sys2Proof.Machine
end

