-- ==== Sys2Proof/Machine/Flags.lean ====
section
/-! DEFINITION. The numbers of kinds, causes and sources, and the layout of `STATUS` (10_state.md R27, R28,
60_exceptions.md R192, R193). -/

namespace Sys2Proof.Machine

/-- `STATUS.KIND` of an error (R28, R192). -/
def Kind.code : Kind → Byte
  | .invalidInput => 1
  | .cryptoError => 2
  | .algorithmError => 3
  | .illegal => 4

/-- The kind of a cause (R192). -/
def Cause.kind : Cause → Kind
  | .idAbsent => .invalidInput
  | .idEmpty => .invalidInput
  | .idTooLong => .invalidInput
  | .keyAbsent => .invalidInput
  | .keyLength => .invalidInput
  | .keyNotHex => .invalidInput
  | .keyRejected => .cryptoError
  | .encryptFailed => .cryptoError
  | .tcInputLen => .algorithmError
  | .permInputLen => .algorithmError
  | .permRound => .algorithmError
  | .padUidLen => .algorithmError
  | .reservedOpcode => .illegal
  | .reservedArg => .illegal
  | .operandLength => .illegal
  | .operandAbsent => .illegal
  | .unmappableChar => .illegal

/-- The number of a cause in `CAUSE` (R192). -/
def Cause.code : Cause → Byte
  | .idAbsent => 0x01
  | .idEmpty => 0x02
  | .idTooLong => 0x03
  | .keyAbsent => 0x04
  | .keyLength => 0x05
  | .keyNotHex => 0x06
  | .keyRejected => 0x20
  | .encryptFailed => 0x21
  | .tcInputLen => 0x30
  | .permInputLen => 0x31
  | .permRound => 0x32
  | .padUidLen => 0x33
  | .reservedOpcode => 0x40
  | .reservedArg => 0x41
  | .operandLength => 0x42
  | .operandAbsent => 0x43
  | .unmappableChar => 0x44

/-- The number of a text register in `STATUS.SRC` (R28). -/
def Src.code : Src → Byte
  | .none => 0
  | .uid => 1
  | .app => 2
  | .khx => 3

/-- `STATUS` with the given fields and bits 7..6 zero (R28): `KIND` + 8 × `VALID` + 16 × `SRC`. -/
def statusByte (kind : Byte) (valid : Bool) (src : Byte) : Byte :=
  kind ||| ((if valid then 1 else 0) <<< 3) ||| (src <<< 4)

/-- `STATUS` after completion (R195). -/
def statusDone : Byte := statusByte 0 true Src.none.code

/-- `STATUS` after an error (R193, R196). -/
def statusErr (cause : Cause) (src : Src) : Byte := statusByte cause.kind.code false src.code

/-- `STATUS[2:0]` (R28). -/
def kindField (status : Byte) : BitVec 3 := status.extractLsb' 0 3

/-- `STATUS[3]` (R28). -/
def validField (status : Byte) : Bool := status.getLsbD 3

/-- `STATUS[5:4]` (R28). -/
def srcField (status : Byte) : BitVec 2 := status.extractLsb' 4 2

/-- `STATUS[7:6]` (R28): reserved. -/
def reservedField (status : Byte) : BitVec 2 := status.extractLsb' 6 2

/-- `DESERR` after an error: the DES unit's code for a `CryptoError`, else 0 (R29, R196). -/
def deserrErr (e : Err) : Byte := if e.cause.kind = .cryptoError then e.code else 0x00

end Sys2Proof.Machine
end

