-- ==== Sys2Proof/Machine/Ops.lean ====
section
/-! DEFINITION. The operations every meaning shares: running pseudocode that can raise and make external requests
(00_scope.md R15, R16), the two ends of a command (60_exceptions.md R195, R196), and access to a register by its number
(30_encoding.md R76). PTG has no return from an error, because an error has no entry (R199). -/

namespace Sys2Proof.Machine

/-- The run of a piece of pseudocode: the external requests it made, in order (R16), and its value or error (R15). -/
structure Run (α : Type) where
  reqs : List Request
  out : Except Err α

/-- `return v` (R15). -/
def Run.ok {α : Type} (v : α) : Run α := { reqs := [], out := .ok v }

/-- `raise` (R15). -/
def Run.err {α : Type} (e : Err) : Run α := { reqs := [], out := .error e }

/-- One step of pseudocode after another: an error ends the whole, and no request follows it (R15, R64). -/
def Run.bind {α β : Type} (m : Run α) (f : α → Run β) : Run β :=
  match m.out with
  | .error e => { reqs := m.reqs, out := .error e }
  | .ok v => { reqs := m.reqs ++ (f v).reqs, out := (f v).out }

/-- A function without requests, whose cause of failure becomes an error (R191: passed on without modification). -/
def Run.lift {α : Type} (tag : Cause → Err) (x : Except Cause α) : Run α :=
  match x with
  | .ok v => .ok v
  | .error c => .err (tag c)

/-- An error about no text register, without a DES code. -/
def Err.plain (c : Cause) : Err := { cause := c, src := .none, code := 0x00 }

/-- An error about a text register, without a DES code. -/
def Err.about (src : Src) (c : Cause) : Err := { cause := c, src := src, code := 0x00 }

/-- `complete(v)` (R195): the end of a command that succeeds. -/
def State.complete (s : State) (v : Bytes) (reqs : List Request) : State :=
  { s with
    res := v, status := statusDone, cause := 0x00, deserr := 0x00, scratch := Scratch.cleared, requests := reqs }

/-- `raise K(c)` (R196): the end of a command that fails. `RES` is emptied, nothing is saved, control goes nowhere. -/
def State.raise (s : State) (e : Err) (reqs : List Request) : State :=
  { s with
    res := [], status := statusErr e.cause e.src, cause := e.cause.code, deserr := deserrErr e,
    scratch := Scratch.cleared, requests := reqs }

/-- The end of a command (R190): it completes with the run's value or raises the run's error. -/
def State.finish (s : State) (m : Run Bytes) : State :=
  match m.out with
  | .ok v => s.complete v m.reqs
  | .error e => s.raise e m.reqs

/-- A whole command, one atomic step (20_memory.md R59): it always ends (R190). -/
def State.command (s : State) (m : Run Bytes) : Host.Outcome State Fault Refusal := .next (s.finish m)

/-- The register with a given number (R76); 11 and above are reserved. -/
def Reg.ofNumber : Nat → Option Reg
  | 0 => some .uid
  | 1 => some .app
  | 2 => some .khx
  | 3 => some .opa
  | 4 => some .opb
  | 5 => some .key
  | 6 => some .res
  | 7 => some .status
  | 8 => some .cause
  | 9 => some .deserr
  | 10 => some .now
  | _ => none

/-- The whole current value of a register (20_memory.md R58). -/
def State.readReg (s : State) : Reg → RegValue
  | .uid => .text s.uid
  | .app => .text s.app
  | .khx => .text s.khx
  | .opa => .bytes s.opa
  | .opb => .bytes s.opb
  | .key => .bytes s.key
  | .res => .bytes s.res
  | .status => .byte s.status
  | .cause => .byte s.cause
  | .deserr => .byte s.deserr
  | .now => .time s.now

/-- A text that fits a text register: `absent`, or at most `TXT_MAX` characters (R57). -/
def textFits (t : Option Text) : Bool :=
  match t with
  | none => true
  | some x => x.length ≤ Config.txtMax

/-- A byte string that fits `OPA`, `OPB` or `KEY`: at most `BUF_MAX` bytes (R57). -/
def bytesFit (b : Bytes) : Bool := b.length ≤ Config.bufMax

/-- The host's write of a register, `none` where it is not well-formed: a read-only register, a value of the wrong type
or one that is too long (R57, R76). -/
def State.writeReg (s : State) : Reg → RegValue → Option State
  | .uid, .text t => if textFits t then some { s with uid := t } else none
  | .app, .text t => if textFits t then some { s with app := t } else none
  | .khx, .text t => if textFits t then some { s with khx := t } else none
  | .opa, .bytes b => if bytesFit b then some { s with opa := b } else none
  | .opb, .bytes b => if bytesFit b then some { s with opb := b } else none
  | .key, .bytes b => if bytesFit b then some { s with key := b } else none
  | _, _ => none

end Sys2Proof.Machine
end

