-- ==== Sys2Proof/Machine/Operands.lean ====
section
/-! DEFINITION. The operand forms: the text register `NORMID` selects, a byte operand of a required length, a text operand
that must be present (60_exceptions.md R192, R194). -/

namespace Sys2Proof.Machine

/-- The text register `NORMID` reads (41_field_encoder.md R95). -/
def State.selected (s : State) : IdSel → Option Text
  | .uid => s.uid
  | .app => s.app

/-- `STATUS.SRC` of the text register `NORMID` reads (R95). -/
def srcOfSel : IdSel → Src
  | .uid => .uid
  | .app => .app

/-- `if len(b) ≠ n: raise c` (R194). -/
def needLength (c : Cause) (n : Nat) (b : Bytes) : Run Unit :=
  if b.length = n then .ok () else .err (.plain c)

/-- `if UID = absent: raise Illegal(OPERAND_ABSENT)`, else the text (R155, R157). -/
def needUid (t : Option Text) : Run Text :=
  match t with
  | none => .err (.about .uid .operandAbsent)
  | some x => .ok x

end Sys2Proof.Machine
end

