-- ==== Sys2Proof/Machine/BitOps.lean ====
section
/-! DEFINITION. BitOps (43_bitops.md): variable-length XOR and bit expansion, with the operations `XORV` and `BITS`. -/

namespace Sys2Proof.Machine

/-- `xorv(a, b)` (R120): aligned at index 0, the tail of the longer operand copied; ties keep `b` as the longer. -/
def xorv (a b : Bytes) : Bytes :=
  if b.length < a.length then List.zipWith (· ^^^ ·) a b ++ a.drop b.length
  else List.zipWith (· ^^^ ·) a b ++ b.drop a.length

/-- `XORV` (R121). -/
def execXorv (s : State) : Host.Outcome State Fault Refusal := s.command (.ok (xorv s.opa s.opb))

/-- A bit as a byte, 0x00 or 0x01 (R123). -/
def bitByte (b : Bool) : Byte := if b then 0x01 else 0x00

/-- `BITS` (R123): one byte of `RES` for each bit. -/
def execBits (s : State) : Host.Outcome State Fault Refusal := s.command (.ok ((bitsOf s.opa).map bitByte))

end Sys2Proof.Machine
end

