-- ==== Sys2Proof/Machine/DesReference.lean ====
section
/-! DEFINITION. The standard DES of 47_des_reference.md (R180 to R185), informative there: one unit that can stand behind
the DES port, the one the vectors call `STD`. Bits and table entries are numbered as in R180 (log 20). -/

namespace Sys2Proof.Machine

/-- `PC1` (R181). -/
def pc1 : List Nat :=
  [57, 49, 41, 33, 25, 17, 9, 1, 58, 50, 42, 34, 26, 18,
   10, 2, 59, 51, 43, 35, 27, 19, 11, 3, 60, 52, 44, 36,
   63, 55, 47, 39, 31, 23, 15, 7, 62, 54, 46, 38, 30, 22,
   14, 6, 61, 53, 45, 37, 29, 21, 13, 5, 28, 20, 12, 4]

/-- `PC2` (R181). -/
def pc2 : List Nat :=
  [14, 17, 11, 24, 1, 5, 3, 28, 15, 6, 21, 10,
   23, 19, 12, 4, 26, 8, 16, 7, 27, 20, 13, 2,
   41, 52, 31, 37, 47, 55, 30, 40, 51, 45, 33, 48,
   44, 49, 39, 56, 34, 53, 46, 42, 50, 36, 29, 32]

/-- `SHIFTS` (R181): rotations of rounds 1..16. -/
def keyShifts : List Nat :=
  [1, 1, 2, 2, 2, 2, 2, 2, 1, 2, 2, 2, 2, 2, 2, 1]

/-- `IP` (R182). -/
def initialPerm : List Nat :=
  [58, 50, 42, 34, 26, 18, 10, 2, 60, 52, 44, 36, 28, 20, 12, 4,
   62, 54, 46, 38, 30, 22, 14, 6, 64, 56, 48, 40, 32, 24, 16, 8,
   57, 49, 41, 33, 25, 17, 9, 1, 59, 51, 43, 35, 27, 19, 11, 3,
   61, 53, 45, 37, 29, 21, 13, 5, 63, 55, 47, 39, 31, 23, 15, 7]

/-- `FP` (R182). -/
def finalPerm : List Nat :=
  [40, 8, 48, 16, 56, 24, 64, 32, 39, 7, 47, 15, 55, 23, 63, 31,
   38, 6, 46, 14, 54, 22, 62, 30, 37, 5, 45, 13, 53, 21, 61, 29,
   36, 4, 44, 12, 52, 20, 60, 28, 35, 3, 43, 11, 51, 19, 59, 27,
   34, 2, 42, 10, 50, 18, 58, 26, 33, 1, 41, 9, 49, 17, 57, 25]

/-- `E` (R183). -/
def expansion : List Nat :=
  [32, 1, 2, 3, 4, 5, 4, 5, 6, 7, 8, 9,
   8, 9, 10, 11, 12, 13, 12, 13, 14, 15, 16, 17,
   16, 17, 18, 19, 20, 21, 20, 21, 22, 23, 24, 25,
   24, 25, 26, 27, 28, 29, 28, 29, 30, 31, 32, 1]

/-- `P` (R183). -/
def roundPerm : List Nat :=
  [16, 7, 20, 21, 29, 12, 28, 17, 1, 15, 23, 26, 5, 18, 31, 10,
   2, 8, 24, 14, 32, 27, 3, 9, 19, 13, 30, 6, 22, 11, 4, 25]

/-- S1 (R184), rows 0..3 one after another. -/
def sbox1 : List Nat :=
  [14, 4, 13, 1, 2, 15, 11, 8, 3, 10, 6, 12, 5, 9, 0, 7,
   0, 15, 7, 4, 14, 2, 13, 1, 10, 6, 12, 11, 9, 5, 3, 8,
   4, 1, 14, 8, 13, 6, 2, 11, 15, 12, 9, 7, 3, 10, 5, 0,
   15, 12, 8, 2, 4, 9, 1, 7, 5, 11, 3, 14, 10, 0, 6, 13]

/-- S2 (R184), rows 0..3 one after another. -/
def sbox2 : List Nat :=
  [15, 1, 8, 14, 6, 11, 3, 4, 9, 7, 2, 13, 12, 0, 5, 10,
   3, 13, 4, 7, 15, 2, 8, 14, 12, 0, 1, 10, 6, 9, 11, 5,
   0, 14, 7, 11, 10, 4, 13, 1, 5, 8, 12, 6, 9, 3, 2, 15,
   13, 8, 10, 1, 3, 15, 4, 2, 11, 6, 7, 12, 0, 5, 14, 9]

/-- S3 (R184), rows 0..3 one after another. -/
def sbox3 : List Nat :=
  [10, 0, 9, 14, 6, 3, 15, 5, 1, 13, 12, 7, 11, 4, 2, 8,
   13, 7, 0, 9, 3, 4, 6, 10, 2, 8, 5, 14, 12, 11, 15, 1,
   13, 6, 4, 9, 8, 15, 3, 0, 11, 1, 2, 12, 5, 10, 14, 7,
   1, 10, 13, 0, 6, 9, 8, 7, 4, 15, 14, 3, 11, 5, 2, 12]

/-- S4 (R184), rows 0..3 one after another. -/
def sbox4 : List Nat :=
  [7, 13, 14, 3, 0, 6, 9, 10, 1, 2, 8, 5, 11, 12, 4, 15,
   13, 8, 11, 5, 6, 15, 0, 3, 4, 7, 2, 12, 1, 10, 14, 9,
   10, 6, 9, 0, 12, 11, 7, 13, 15, 1, 3, 14, 5, 2, 8, 4,
   3, 15, 0, 6, 10, 1, 13, 8, 9, 4, 5, 11, 12, 7, 2, 14]

/-- S5 (R184), rows 0..3 one after another. -/
def sbox5 : List Nat :=
  [2, 12, 4, 1, 7, 10, 11, 6, 8, 5, 3, 15, 13, 0, 14, 9,
   14, 11, 2, 12, 4, 7, 13, 1, 5, 0, 15, 10, 3, 9, 8, 6,
   4, 2, 1, 11, 10, 13, 7, 8, 15, 9, 12, 5, 6, 3, 0, 14,
   11, 8, 12, 7, 1, 14, 2, 13, 6, 15, 0, 9, 10, 4, 5, 3]

/-- S6 (R184), rows 0..3 one after another. -/
def sbox6 : List Nat :=
  [12, 1, 10, 15, 9, 2, 6, 8, 0, 13, 3, 4, 14, 7, 5, 11,
   10, 15, 4, 2, 7, 12, 9, 5, 6, 1, 13, 14, 0, 11, 3, 8,
   9, 14, 15, 5, 2, 8, 12, 3, 7, 0, 4, 10, 1, 13, 11, 6,
   4, 3, 2, 12, 9, 5, 15, 10, 11, 14, 1, 7, 6, 0, 8, 13]

/-- S7 (R184), rows 0..3 one after another. -/
def sbox7 : List Nat :=
  [4, 11, 2, 14, 15, 0, 8, 13, 3, 12, 9, 7, 5, 10, 6, 1,
   13, 0, 11, 7, 4, 9, 1, 10, 14, 3, 5, 12, 2, 15, 8, 6,
   1, 4, 11, 13, 12, 3, 7, 14, 10, 15, 6, 8, 0, 5, 9, 2,
   6, 11, 13, 8, 1, 4, 10, 7, 9, 5, 0, 15, 14, 2, 3, 12]

/-- S8 (R184), rows 0..3 one after another. -/
def sbox8 : List Nat :=
  [13, 2, 8, 4, 6, 15, 11, 1, 10, 9, 3, 14, 5, 0, 12, 7,
   1, 15, 13, 8, 10, 3, 7, 4, 12, 5, 6, 11, 0, 14, 9, 2,
   7, 11, 4, 1, 9, 12, 14, 2, 0, 6, 10, 13, 15, 3, 5, 8,
   2, 1, 14, 7, 4, 10, 8, 13, 15, 12, 9, 0, 3, 5, 6, 11]

/-- Rotation of a sequence to the left. -/
def rotl {α : Type} (n : Nat) (v : List α) : List α := v.drop n ++ v.take n

/-- Bitwise exclusive or of two sequences of one length. -/
def xorBits (a b : Bits) : Bits := List.zipWith xor a b

/-- Split into groups of `n`, `count` of them. -/
def groups {α : Type} (n : Nat) : Nat → List α → List (List α)
  | 0, _ => []
  | count + 1, v => v.take n :: groups n count (v.drop n)

/-- The subkeys of the remaining rounds, from the halves `C` and `D` (R181). -/
def subkeys : List Nat → Bits → Bits → List Bits
  | [], _, _ => []
  | n :: t, c, d => select pc2 (rotl n c ++ rotl n d) :: subkeys t (rotl n c) (rotl n d)

/-- The key schedule (R181): `PC1` drops the parity bits. -/
def keySchedule (k : Bytes) : List Bits :=
  let cd := select pc1 (bitsOf k)
  subkeys keyShifts (cd.take 28) (cd.drop 28)

/-- The four bits of an S-box entry, most significant first (R183). -/
def nibbleBits (n : Nat) : Bits := [n.testBit 3, n.testBit 2, n.testBit 1, n.testBit 0]

/-- One S-box on one group of six bits: row `2*b1 + b6`, column `b2 b3 b4 b5` (R183). -/
def sboxOut (box : List Nat) (g : Bits) : Bits :=
  let row := bitsValue [bitAt g 1, bitAt g 6]
  let column := bitsValue [bitAt g 2, bitAt g 3, bitAt g 4, bitAt g 5]
  nibbleBits (box.getD (16 * row + column) 0)

/-- The eight S-boxes in order (R184). -/
def sboxes : List (List Nat) := [sbox1, sbox2, sbox3, sbox4, sbox5, sbox6, sbox7, sbox8]

/-- The round function `f(R, K)` (R183). -/
def desRound (r k : Bits) : Bits :=
  select roundPerm (List.zipWith sboxOut sboxes (groups 6 8 (xorBits (select expansion r) k))).flatten

/-- The sixteen rounds (R185): `Ln` is `Rn-1`, `Rn` is `Ln-1 xor f(Rn-1, Kn)`. -/
def desRounds : List Bits → Bits × Bits → Bits × Bits
  | [], lr => lr
  | k :: t, (l, r) => desRounds t (r, xorBits l (desRound r k))

/-- Eight bytes of a sequence as a block. -/
def blockOf (b : Bytes) : Vector Byte 8 :=
  #v[b.getD 0 0, b.getD 1 0, b.getD 2 0, b.getD 3 0, b.getD 4 0, b.getD 5 0, b.getD 6 0, b.getD 7 0]

/-- `STD_DES_E(k, b)` (R185): the halves are exchanged before the final permutation. -/
def stdDesE (k b : Bytes) : Vector Byte 8 :=
  let m := select initialPerm (bitsOf b)
  let lr := desRounds (keySchedule k) (m.take 32, m.drop 32)
  blockOf (pack (select finalPerm (lr.2 ++ lr.1)))

end Sys2Proof.Machine
end

