-- ==== Sys2Proof/Machine/BlockCipher.lean ====
section
/-! DEFINITION. The DES port and the BlockCipher (42_block_cipher.md): the answers of each unit that can stand behind the
port, the binding of a key, the encryption of a block, and `ENCR`. -/

namespace Sys2Proof.Machine

open Sys2Proof.Config

/-- `DES_E` of `STUB` (95_test_vectors.md): `c[i] = b[(i + 1) mod 8] xor k[i]` (log 24). -/
def stubE (k b : Bytes) : Vector Byte 8 :=
  blockOf ((List.range 8).map fun i => b.getD ((i + 1) % 8) 0 ^^^ k.getD i 0)

/-- The answer of a unit to `DES_KS(k)` (R110), a function of `k` alone (R112). -/
def desKs (d : DesUnit) (k : Bytes) : KsAnswer :=
  match d with
  | .external => externalKs k
  | .standard => .ok
  | .stub => .ok
  | .stubRej => if k = [0x01, 0x01, 0x01, 0x01, 0x01, 0x01, 0x01, 0x01] then .fail 0x07 else .ok

/-- The answer of a unit to `DES_E(k, b)` (R111), a function of `(k, b)` alone (R112). -/
def desE (d : DesUnit) (k b : Bytes) : EncAnswer :=
  match d with
  | .external => externalEnc k b
  | .standard => .ok (stdDesE k b)
  | .stub => .ok (stubE k b)
  | .stubRej => if b.getD 0 0 = 0xFA then .fail 0x09 else .ok (stubE k b)

/-- `bind(k)` (R114): one `DES_KS` request; a failure is `CryptoError(KEY_REJECTED)` (R113). -/
def bindKey (d : DesUnit) (k : Bytes) : Run Unit :=
  match desKs d k with
  | .ok => { reqs := [.desKs k], out := .ok () }
  | .fail code => { reqs := [.desKs k], out := .error { cause := .keyRejected, src := .none, code := code } }

/-- `encrypt(k, b)` (R114): one `DES_E` request; a failure is `CryptoError(ENCRYPT_FAILED)` (R113). -/
def encrypt (d : DesUnit) (k b : Bytes) : Run Bytes :=
  match desE d k b with
  | .ok c => { reqs := [.desE k b], out := .ok c.toList }
  | .fail code => { reqs := [.desE k b], out := .error { cause := .encryptFailed, src := .none, code := code } }

/-- The pseudocode of `ENCR` (R115): the key's length, the block's length, one binding, one encryption. -/
def encrRun (p : Platform) (key opa : Bytes) : Run Bytes :=
  (needLength .operandLength blockLen key).bind fun _ =>
  (needLength .operandLength blockLen opa).bind fun _ =>
  (bindKey p.des key).bind fun _ =>
  encrypt p.des key opa

/-- `ENCR` (R115). -/
def execEncr (s : State) : Host.Outcome State Fault Refusal := s.command (encrRun s.plat s.key s.opa)

end Sys2Proof.Machine
end

