-- ==== Sys2Proof/Machine/FieldEncoder.lean ====
section
/-! DEFINITION. The FieldEncoder (41_field_encoder.md): encoding text in the code page, whitespace, identifiers, the key
text, and the operations `NORMID` and `DECKEY`. -/

namespace Sys2Proof.Machine

open Sys2Proof.Config

/-- The byte of a character in `CP`, else in `CP_EXT` (R92). -/
def cpByte (ext : List (CharCode × Byte)) (c : CharCode) : Option Byte :=
  match cp c with
  | some b => some b
  | none => ext.lookup c

/-- `cpenc(t)` (R92): one byte for each character, in order; a character in neither table is
`Illegal(UNMAPPABLE_CHAR)`. -/
def cpenc (ext : List (CharCode × Byte)) : Text → Except Cause Bytes
  | [] => .ok []
  | c :: t =>
    match cpByte ext c with
    | none => .error .unmappableChar
    | some b =>
      match cpenc ext t with
      | .error e => .error e
      | .ok bs => .ok (b :: bs)

/-- `isws(c)` (R93). -/
def isws (c : CharCode) : Bool := wsSet.contains c

/-- `stripLeading(t)` (R93): without its longest prefix of whitespace. -/
def stripLeading (t : Text) : Text := t.dropWhile isws

/-- `trim(t)` (R93): `stripLeading(t)` without its longest suffix of whitespace. -/
def trim (t : Text) : Text := ((stripLeading t).reverse.dropWhile isws).reverse

/-- `removeWs(t)` (R93): without any whitespace character. -/
def removeWs (t : Text) : Text := t.filter fun c => !isws c

/-- `normalizeIdentifier(raw)` (R94), its four checks in the rule's order. -/
def normalizeIdentifier (ext : List (CharCode × Byte)) (raw : Option Text) : Except Cause Bytes :=
  match raw with
  | none => .error .idAbsent
  | some t =>
    if (stripLeading t).length = 0 then .error .idEmpty
    else
      match cpenc ext (stripLeading t) with
      | .error e => .error e
      | .ok e =>
        if fieldLen < e.length then .error .idTooLong
        else .ok (e ++ rep fieldPad (fieldLen - e.length))

/-- `hexval(c)` (R96). -/
def hexval (c : CharCode) : Option Nat :=
  if 0x30 ≤ c ∧ c ≤ 0x39 then some (c.toNat - 0x30)
  else if 0x41 ≤ c ∧ c ≤ 0x46 then some (c.toNat - 0x41 + 10)
  else if 0x61 ≤ c ∧ c ≤ 0x66 then some (c.toNat - 0x61 + 10)
  else none

/-- The bytes of a sequence of hex digits, two characters for each, the first the high half (R97); `none` where a
character is no hex digit or one is left over. -/
def hexBytes : Text → Option Bytes
  | [] => some []
  | [_] => none
  | c0 :: c1 :: t =>
    match hexval c0, hexval c1, hexBytes t with
    | some h, some l, some bs => some (BitVec.ofNat 8 (16 * h + l) :: bs)
    | _, _, _ => none

/-- `decodeKeyBytes(raw)` (R97): absence, then the length without whitespace, then the digits. -/
def decodeKeyBytes (raw : Option Text) : Except Cause Bytes :=
  match raw with
  | none => .error .keyAbsent
  | some t =>
    if (removeWs t).length = keyHexLen then
      match hexBytes (removeWs t) with
      | none => .error .keyNotHex
      | some k => .ok k
    else .error .keyLength

/-- The pseudocode of `NORMID` (R95): every error is about the register read. -/
def normidRun (p : Platform) (src : Src) (raw : Option Text) : Run Bytes :=
  Run.lift (.about src) (normalizeIdentifier p.cpExt raw)

/-- `NORMID` (R95). -/
def execNormid (sel : IdSel) (s : State) : Host.Outcome State Fault Refusal :=
  s.command (normidRun s.plat (srcOfSel sel) (s.selected sel))

/-- The pseudocode of `DECKEY` (R98): decode, then offer the key to the DES unit. -/
def deckeyRun (p : Platform) (khx : Option Text) : Run Bytes :=
  (Run.lift (.about .khx) (decodeKeyBytes khx)).bind fun k =>
  (bindKey p.des k).bind fun _ =>
  .ok k

/-- `DECKEY` (R98). -/
def execDeckey (s : State) : Host.Outcome State Fault Refusal := s.command (deckeyRun s.plat s.khx)

end Sys2Proof.Machine
end

