-- ==== Sys2Proof/Machine/TimeCoder.lean ====
section
/-! DEFINITION. The TimeCoder (45_time_coder.md): the bit permutation, the padding, the six rounds, and the operations
`TPAD`, `PERM` and `TCODE`. -/

namespace Sys2Proof.Machine

open Sys2Proof.Config

/-- `permute(x, i)` (R152): the length is checked before the round. -/
def permute (x : Bytes) (i : Nat) : Except Cause Bytes :=
  if x.length = halfLen then
    match permRow i with
    | none => .error .permRound
    | some row => .ok (pack (select row (bitsOf x)))
  else .error .permInputLen

/-- `PERM` (R153). -/
def execPerm (round : BitVec 8) (s : State) : Host.Outcome State Fault Refusal :=
  s.command (Run.lift .plain (permute s.opa round.toNat))

/-- `tcPad(uidText)` (R154): the trimmed text in the code page, filled with 0x55 to 12 bytes. -/
def tcPad (ext : List (CharCode × Byte)) (uidText : Text) : Except Cause Bytes :=
  match cpenc ext (trim uidText) with
  | .error e => .error e
  | .ok u => if padLen < u.length then .error .padUidLen else .ok (u ++ rep padFill (padLen - u.length))

/-- The register an error of `tcPad` is about: `UID` for an unmappable character, none for the length (R28, R155;
log 16). -/
def padErr (c : Cause) : Err := if c = .unmappableChar then .about .uid c else .plain c

/-- The pseudocode of `TPAD` (R155). -/
def tpadRun (p : Platform) (uid : Option Text) : Run Bytes :=
  (needUid uid).bind fun t =>
  Run.lift padErr (tcPad p.cpExt t)

/-- `TPAD` (R155). -/
def execTpad (s : State) : Host.Outcome State Fault Refusal := s.command (tpadRun s.plat s.uid)

/-- `pad_i` (R154, R156): the first half of the padding in odd rounds, the second in even ones. -/
def padOf (padb : Bytes) (i : Nat) : Bytes := if i % 2 = 1 then left padb 6 else right padb 6

/-- One round (R156, R158) on the halves `(L, R)`: the block is built from the old `R`, only the new `R` is
permuted. -/
def tcRound (d : DesUnit) (k padb : Bytes) (i : Nat) (lr : Bytes × Bytes) : Run (Bytes × Bytes) :=
  (encrypt d k (lr.2 ++ padOf padb i)).bind fun c =>
  (Run.lift .plain (permute (xorv (left c halfLen) lr.1) i)).bind fun r =>
  .ok (lr.2, r)

/-- Rounds with the given numbers, in order (R150). -/
def tcRounds (d : DesUnit) (k padb : Bytes) : List Nat → Bytes × Bytes → Run (Bytes × Bytes)
  | [], lr => .ok lr
  | i :: t, lr => (tcRound d k padb i lr).bind fun lr' => tcRounds d k padb t lr'

/-- `timeCoder(v, uidText, k)` (R156). -/
def timeCoder (p : Platform) (v : Bytes) (uidText : Text) (k : Bytes) : Run Bytes :=
  (needLength .tcInputLen resultLen v).bind fun _ =>
  (Run.lift padErr (tcPad p.cpExt uidText)).bind fun padb =>
  (tcRounds p.des k padb [1, 2, 3, 4, 5, 6] (left v halfLen, right v halfLen)).bind fun lr =>
  .ok (lr.1 ++ lr.2)

/-- The pseudocode of `TCODE` (R157), its checks in the rule's order. -/
def tcodeRun (p : Platform) (key : Bytes) (uid : Option Text) (opa : Bytes) : Run Bytes :=
  (needLength .operandLength blockLen key).bind fun _ =>
  (needUid uid).bind fun t =>
  (needLength .tcInputLen resultLen opa).bind fun _ =>
  (Run.lift padErr (tcPad p.cpExt t)).bind fun _ =>
  (bindKey p.des key).bind fun _ =>
  timeCoder p opa t key

/-- `TCODE` (R157). -/
def execTcode (s : State) : Host.Outcome State Fault Refusal := s.command (tcodeRun s.plat s.key s.uid s.opa)

end Sys2Proof.Machine
end

