-- ==== Sys2Proof/Machine/Translator.lean ====
section
/-! DEFINITION. The Translator (46_translator.md): wraparound 6-bit windows over a base-36 alphabet, with the operations
`XLATC` and `XLAT`. -/

namespace Sys2Proof.Machine

open Sys2Proof.Config

/-- The value of the window at a 1-indexed start (R171): six bits, wrapping modulo 32, first bit most significant. -/
def windowValue (bits : Bits) (start : Nat) : Nat :=
  bitsValue ((List.range 6).map fun j => bits.getD ((start - 1 + j) % 32) false)

/-- `translateChar(bits, start)` (R171), as a character code. -/
def translateChar (bits : Bits) (start : Nat) : CharCode := alphabet (windowValue bits start % 36)

/-- `translate(x)` (R173): the characters of the eight windows. -/
def translateAll (x : Bytes) : Text := windowStarts.map (translateChar (bitsOf x))

/-- The pseudocode of `XLATC` (R172). `start` = 0 has no encoding; it is refused as its word is (R73; log 15). -/
def xlatcRun (start : BitVec 8) (opa : Bytes) : Run Bytes :=
  if start = 0 then .err (.plain .reservedArg)
  else
    (needLength .operandLength resultLen opa).bind fun _ =>
    .ok [translateChar (bitsOf opa) start.toNat]

/-- `XLATC` (R172). -/
def execXlatc (start : BitVec 8) (s : State) : Host.Outcome State Fault Refusal := s.command (xlatcRun start s.opa)

/-- The pseudocode of `XLAT` (R174). -/
def xlatRun (opa : Bytes) : Run Bytes :=
  (needLength .operandLength resultLen opa).bind fun _ =>
  .ok (translateAll opa)

/-- `XLAT` (R174). -/
def execXlat (s : State) : Host.Outcome State Fault Refusal := s.command (xlatRun s.opa)

end Sys2Proof.Machine
end

