-- ==== Sys2Proof/Machine/Orchestrator.lean ====
section
/-! DEFINITION. The orchestrator (44_orchestrator.md): the time encoding, the time mix, the whole derivation, and the
operations `TENC`, `TMIX` and `GEN`. -/

namespace Sys2Proof.Machine

open Sys2Proof.Config

/-- The least `n` from `n` on with `T < 2^(8*n - 1)`, looking at most `fuel` further (R130). -/
def timeLenFrom : Nat → Nat → Nat → Nat
  | 0, n, _ => n
  | fuel + 1, n, t => if t < 2 ^ (8 * n - 1) then n else timeLenFrom fuel (n + 1) t

/-- The length of `timeBytes(T)`: the least `n ≥ 1` with `T < 2^(8*n - 1)`, at most 8 on the port's range (R130). -/
def timeLen (t : Nat) : Nat := timeLenFrom 7 1 t

/-- `timeBytes(T)` (R130): big-endian, leading bit 0. -/
def timeBytes (t : Nat) : Bytes :=
  (List.range (timeLen t)).map fun i => BitVec.ofNat 8 (t / 2 ^ (8 * (timeLen t - 1 - i)))

/-- The bytes of the time that enter the mix (R131): under `LOW4` at most the rightmost four. -/
def mixedTime (policy : TimeWidePolicy) (t : Nat) : Bytes :=
  match policy with
  | .low4 => if resultLen < (timeBytes t).length then right (timeBytes t) resultLen else timeBytes t
  | .fault => timeBytes t

/-- `timeMix(r3, T)` (R131). -/
def timeMix (policy : TimeWidePolicy) (r3 : Bytes) (t : Nat) : Bytes := xorv r3 (mixedTime policy t)

/-- `sample(NOW)` (R16, 10_state.md R31): one read of the port. -/
def sample (now : Time) : Run Nat := { reqs := [.sample], out := .ok now.toNat }

/-- The pseudocode of `TENC` (R132): the raw encoding, no policy. -/
def tencRun (now : Time) : Run Bytes :=
  (sample now).bind fun t =>
  .ok (timeBytes t)

/-- `TENC` (R132). -/
def execTenc (s : State) : Host.Outcome State Fault Refusal := s.command (tencRun s.now)

/-- The pseudocode of `TMIX` (R133): the length is checked before the clock is sampled. -/
def tmixRun (p : Platform) (now : Time) (opa : Bytes) : Run Bytes :=
  (needLength .operandLength resultLen opa).bind fun _ =>
  (sample now).bind fun t =>
  .ok (timeMix p.timeWide opa t)

/-- `TMIX` (R133). -/
def execTmix (s : State) : Host.Outcome State Fault Refusal := s.command (tmixRun s.plat s.now s.opa)

/-- The validation that opens a derivation and the binding of its key (R134): `UID`, `APP`, `KHX`, then `DES_KS`
(60_exceptions.md R197). It gives `UIDF`, `APPF`, `KW`. -/
def genSetup (p : Platform) (uid app khx : Option Text) : Run (Bytes × Bytes × Bytes) :=
  (Run.lift (.about .uid) (normalizeIdentifier p.cpExt uid)).bind fun uidf =>
  (Run.lift (.about .app) (normalizeIdentifier p.cpExt app)).bind fun appf =>
  (Run.lift (.about .khx) (decodeKeyBytes khx)).bind fun kw =>
  (bindKey p.des kw).bind fun _ =>
  .ok (uidf, appf, kw)

/-- `generate(uid, app, khx)` (R134): validation and binding, then the six steps. The clock is sampled in step 4, and
not at all by a derivation that fails before it (R136, whose list of requests it makes; log 25). -/
def generate (p : Platform) (now : Time) (uid app khx : Option Text) : Run Bytes :=
  (genSetup p uid app khx).bind fun f =>
  (encrypt p.des f.2.2 f.1).bind fun r1 =>
  (encrypt p.des f.2.2 (xorv r1 f.2.1)).bind fun r2 =>
  (sample now).bind fun t =>
  (timeCoder p (timeMix p.timeWide (left r2 resultLen) t) (uid.getD []) f.2.2).bind fun r5 =>
  .ok (translateAll r5)

/-- `GEN` (R135). -/
def execGen (s : State) : Host.Outcome State Fault Refusal := s.command (generate s.plat s.now s.uid s.app s.khx)

end Sys2Proof.Machine
end

