-- ==== Sys2Proof/Machine/Dispatch.lean ====
section
/-! DEFINITION. The meaning of each operation, one arm for each constructor of `Instr` (30_encoding.md R72). -/

namespace Sys2Proof.Machine

def exec (i : Instr) (s : State) : Host.Outcome State Fault Refusal :=
  match i with
  | .normid sel => Sys2Proof.Machine.execNormid sel s
  | .deckey => Sys2Proof.Machine.execDeckey s
  | .encr => Sys2Proof.Machine.execEncr s
  | .xorv => Sys2Proof.Machine.execXorv s
  | .bits => Sys2Proof.Machine.execBits s
  | .tenc => Sys2Proof.Machine.execTenc s
  | .tmix => Sys2Proof.Machine.execTmix s
  | .tpad => Sys2Proof.Machine.execTpad s
  | .perm round => Sys2Proof.Machine.execPerm round s
  | .tcode => Sys2Proof.Machine.execTcode s
  | .xlatc start => Sys2Proof.Machine.execXlatc start s
  | .xlat => Sys2Proof.Machine.execXlat s
  | .gen => Sys2Proof.Machine.execGen s

end Sys2Proof.Machine
end

