-- ==== Sys2Proof/Machine/Transactions.lean ====
section
/-! DEFINITION. What PTG does with one event from outside (20_memory.md R57 to R61): the host's write, read and command,
reset (70_reset_and_hazards.md R220), and a new value on the clock port (10_state.md R31). -/

namespace Sys2Proof.Machine

/-- The cause a rejected command word reports (30_encoding.md R74, R75). -/
def causeOfReject : DecodeError → Cause
  | .reservedOpcode => .reservedOpcode
  | .reservedArg => .reservedArg

/-- `CMD(w)` (R59): decode and run the operation to its end; a reserved word raises `Illegal` (R71; log 9). -/
def runWord (w : CmdWord) (s : State) : Host.Outcome State Fault Refusal :=
  match decode w with
  | .ok i => exec i s
  | .error e => .next (s.raise (.plain (causeOfReject e)) [])

/-- `WR(n, v)` (R57), refused where it is not well-formed (log 10). -/
def hostWrite (n : Nat) (v : RegValue) (s : State) : Host.Outcome State Fault Refusal :=
  match Reg.ofNumber n with
  | none => .refused (.illFormedWrite n)
  | some r =>
    match s.writeReg r v with
    | none => .refused (.illFormedWrite n)
    | some t => .next t

/-- `RD(n)` (R58): the host gets the whole value and nothing of PTG changes; refused for a reserved number (log 10). -/
def hostRead (n : Nat) (s : State) : Host.Outcome State Fault Refusal :=
  match Reg.ofNumber n with
  | none => .refused (.illFormedRead n)
  | some r => .next { s with reply := some (s.readReg r) }

/-- Reset (R220, R36): PTG's registers and scratch take their reset values; what stands outside PTG stays (log 13). -/
def applyReset (s : State) : State :=
  { State.reset with now := s.now, plat := s.plat, inbox := s.inbox, reply := s.reply }

/-- The clock drives the port (10_state.md R31). -/
def driveClock (t : Time) (s : State) : State := { s with now := t }

/-- The effect of one event (R61). -/
def transact (ev : Event) (s : State) : Host.Outcome State Fault Refusal :=
  match ev with
  | .wr n v => hostWrite n v s
  | .rd n => hostRead n s
  | .cmd w => runWord w s
  | .reset => .next (applyReset s)
  | .clock t => .next (driveClock t s)

/-- The next event and the state with it taken from the pending ones (R61; log 1). -/
def takeEvent (s : State) : Option (Event × State) :=
  match s.inbox with
  | [] => none
  | ev :: rest => some (ev, { s with inbox := rest })

/-- The word a table row stands for, as the `CMD` the host issues next (R63; log 1, 17). -/
def commandWord (nbits w : Nat) : CmdWord := BitVec.ofNat 16 (w % 2 ^ nbits)

/-- A command put before everything else the host has pending (log 1). -/
def issueFirst (w : CmdWord) (s : State) : State := { s with inbox := .cmd w :: s.inbox }

end Sys2Proof.Machine
end

