-- ==== Sys2Proof/Machine/Step.lean ====
section
/-! DEFINITION. One step of the machine: PTG takes the next event from outside (20_memory.md R61). -/

namespace Sys2Proof.Machine

/-- One step: the next pending event takes effect, whole; with none pending PTG is idle and nothing changes (log 2). -/
def step (s : State) : Host.Outcome State Fault Refusal :=
  match takeEvent s with
  | none => .next s
  | some (ev, t) => transact ev t

/-- `s` with the command whose word has the low `nbits` bits of `w` as the next transaction. PTG fetches nothing
(10_state.md R33): the command word is the data of a `CMD` (20_memory.md R63; log 1). -/
def State.withFetchWord (s : State) (nbits w : Nat) : State := issueFirst (commandWord nbits w) s

end Sys2Proof.Machine
end

