-- ==== Sys2Proof/Machine/Sequencer.lean ====
section
/-! DEFINITION. The finer description of PTG's sequencer for its two long commands (10_state.md R32, R33,
45_time_coder.md R158): `GEN` one orchestrator step, and both `GEN` and `TCODE` one time-coder round, at a time, with the
buffers of scratch and the counters `STEP` and `RND` in use. `exec` runs the same commands whole (log 14). -/

namespace Sys2Proof.Machine

open Sys2Proof.Config

/-- Where a command stands: still running, or over (completed or raised). -/
inductive Tick where
  | running (s : State)
  | over (s : State)
deriving DecidableEq, Repr

/-- The state a command has reached. -/
def Tick.state : Tick → State
  | .running s => s
  | .over s => s

/-- Go on with a value, its requests added to the command's; an error ends the command (R196). -/
def advance {α : Type} (s : State) (m : Run α) (f : α → State → Tick) : Tick :=
  match m.out with
  | .error e => .over (s.raise e (s.requests ++ m.reqs))
  | .ok v => f v { s with requests := s.requests ++ m.reqs }

/-- A command begins with scratch and request record empty (R32). -/
def begin (s : State) : State := { s with scratch := Scratch.cleared, requests := [] }

/-- `GEN` begins: validation and binding, then `STEP` = 1 (R134). -/
def genStart (s : State) : Tick :=
  advance (begin s) (genSetup s.plat s.uid s.app s.khx) fun f t =>
    .running { t with scratch := { t.scratch with uidf := f.1, appf := f.2.1, kw := f.2.2, step := 1 } }

/-- The time coder begins on `v`: length check, padding, halves, `RND` = 1 (R156). -/
def tcStart (v : Bytes) (uidText : Text) (s : State) : Tick :=
  advance s ((needLength .tcInputLen resultLen v).bind fun _ => Run.lift padErr (tcPad s.plat.cpExt uidText)) fun padb t =>
    .running { t with
      scratch := { t.scratch with padb := padb, l := left v halfLen, r := right v halfLen, rnd := 1 } }

/-- One round, `RND` counting on (R156, R158). -/
def tcTick (k : Bytes) (s : State) : Tick :=
  let x := s.scratch
  let blk := x.r ++ padOf x.padb x.rnd
  advance s (encrypt s.plat.des k blk) fun c t =>
    let d := left c halfLen
    let e := xorv d x.l
    advance t (Run.lift .plain (permute e x.rnd)) fun r u =>
      .running { u with scratch := { u.scratch with blk := blk, d := d, e := e, l := x.r, r := r, rnd := x.rnd + 1 } }

/-- One step of `GEN` (R134), chosen by `STEP` and, inside step 5, by `RND`. Neither counter goes back while the command
runs (R33): `RND` keeps the final value 7 of R158 through step 6, and the end of the command clears both. -/
def genTick (s : State) : Tick :=
  let x := s.scratch
  match x.step with
  | 1 =>
    advance s (encrypt s.plat.des x.kw x.uidf) fun r1 t =>
      .running { t with scratch := { t.scratch with r1 := r1, step := 2 } }
  | 2 =>
    advance s (encrypt s.plat.des x.kw (xorv x.r1 x.appf)) fun r2 t =>
      .running { t with scratch := { t.scratch with r2a := xorv x.r1 x.appf, r2 := r2, step := 3 } }
  | 3 => .running { s with scratch := { x with r3 := left x.r2 resultLen, step := 4 } }
  | 4 =>
    advance s (sample s.now) fun now t =>
      .running { t with
        scratch := { t.scratch with tb := timeBytes now, r4 := timeMix s.plat.timeWide x.r3 now, step := 5 } }
  | 5 =>
    match x.rnd with
    | 0 => tcStart x.r4 (s.uid.getD []) s
    | 7 => .running { s with scratch := { x with r5 := x.l ++ x.r, step := 6 } }
    | _ => tcTick x.kw s
  | 6 => .over (s.complete (translateAll x.r5) s.requests)
  | _ => .over s

/-- `TCODE` begins: its checks and its binding, then the time coder (R157). -/
def tcodeStart (s : State) : Tick :=
  let checks : Run Text :=
    (needLength .operandLength blockLen s.key).bind fun _ =>
    (needUid s.uid).bind fun t =>
    (needLength .tcInputLen resultLen s.opa).bind fun _ =>
    (Run.lift padErr (tcPad s.plat.cpExt t)).bind fun _ =>
    (bindKey s.plat.des s.key).bind fun _ =>
    .ok t
  advance (begin s) checks fun t u => tcStart s.opa t u

/-- One step of `TCODE`: a round, or the end after the sixth (R158). -/
def tcodeTick (s : State) : Tick :=
  match s.scratch.rnd with
  | 0 => .over s
  | 7 => .over (s.complete (s.scratch.l ++ s.scratch.r) s.requests)
  | _ => tcTick s.key s

/-- At most `n` further steps of a running command. -/
def runTicks (f : State → Tick) : Nat → Tick → Tick
  | 0, x => x
  | _ + 1, .over s => .over s
  | n + 1, .running s => runTicks f n (f s)

end Sys2Proof.Machine
end

