-- ==== Sys2Proof/Safety.lean ====
section
/-! DEFINITION. What the statements speak of: the invariant of every reachable state, the runs that no refusal ends, and
the registers each operation reads (10_state.md R26). -/

namespace Sys2Proof.Machine

open Sys2Proof.Config

/-- Every register within its capacity (10_state.md R21 to R24). -/
abbrev State.WithinCapacity (s : State) : Prop :=
  (∀ t ∈ s.uid, t.length ≤ txtMax) ∧ (∀ t ∈ s.app, t.length ≤ txtMax) ∧ (∀ t ∈ s.khx, t.length ≤ txtMax) ∧
  s.opa.length ≤ bufMax ∧ s.opb.length ≤ bufMax ∧ s.key.length ≤ bufMax ∧ s.res.length ≤ resMax

/-- The ten values `STATUS` can hold (93_implementation_defined.md U11). -/
def legalStatus : List Byte := [0x00, 0x08, 0x11, 0x21, 0x31, 0x02, 0x03, 0x04, 0x14, 0x24]

/-- The status registers and `RES` agree (10_state.md R27 to R29, 60_exceptions.md R193): either no command has ended in
an error and `CAUSE` is 0, or `CAUSE` is a code of R192 and `KIND` is its kind; `RES` is empty unless `VALID` is 1, and
`DESERR` is 0 unless `KIND` is `CryptoError`. -/
abbrev State.StatusCoherent (s : State) : Prop :=
  s.status ∈ legalStatus ∧
  (validField s.status = false → s.res = []) ∧
  (kindField s.status = 0 → s.cause = 0) ∧
  (kindField s.status ≠ 0 →
    ∃ c : Cause, s.cause = c.code ∧ (kindField s.status).toNat = c.kind.code.toNat ∧ validField s.status = false) ∧
  (kindField s.status ≠ 2 → s.deserr = 0)

/-- The invariant of every state between two events: capacities, coherent status, scratch cleared (10_state.md R32). -/
abbrev State.Inv (s : State) : Prop :=
  s.WithinCapacity ∧ s.StatusCoherent ∧ s.scratch = Scratch.cleared

/-- A transaction of a host that keeps the protocol (20_memory.md R57, R58): numbers, types and lengths as R76 says. -/
def Event.wellFormed : Event → Bool
  | .wr n (.text t) => n ≤ 2 && textFits t
  | .wr n (.bytes b) => 3 ≤ n && n ≤ 5 && bytesFit b
  | .wr _ (.byte _) => false
  | .wr _ (.time _) => false
  | .rd n => n ≤ 10
  | .cmd _ => true
  | .reset => true
  | .clock _ => true

/-- A state from which a run meets no refusal: the invariant, and every pending transaction well-formed. -/
abbrev State.Safe (s : State) : Prop := s.Inv ∧ ∀ ev ∈ s.inbox, ev.wellFormed = true

/-- The registers an operation reads (10_state.md R26), the clock port among them. -/
def reads : Instr → List Reg
  | .normid .uid => [.uid]
  | .normid .app => [.app]
  | .deckey => [.khx]
  | .encr => [.opa, .key]
  | .xorv => [.opa, .opb]
  | .bits => [.opa]
  | .tenc => [.now]
  | .tmix => [.opa, .now]
  | .tpad => [.uid]
  | .perm _ => [.opa]
  | .tcode => [.opa, .uid, .key]
  | .xlatc _ => [.opa]
  | .xlat => [.opa]
  | .gen => [.uid, .app, .khx, .now]

/-- The errors an operation can raise (60_exceptions.md R194); `RESERVED_ARG` comes from decoding. -/
def canRaise : Instr → List Cause
  | .normid _ => [.idAbsent, .idEmpty, .idTooLong, .unmappableChar]
  | .deckey => [.keyAbsent, .keyLength, .keyNotHex, .keyRejected]
  | .encr => [.keyRejected, .encryptFailed, .operandLength]
  | .xorv => []
  | .bits => []
  | .tenc => []
  | .tmix => [.operandLength]
  | .tpad => [.padUidLen, .operandAbsent, .unmappableChar]
  | .perm _ => [.permInputLen, .permRound]
  | .tcode => [.keyRejected, .encryptFailed, .tcInputLen, .padUidLen, .operandLength, .operandAbsent, .unmappableChar]
  | .xlatc _ => [.operandLength]
  | .xlat => [.operandLength]
  | .gen => [.idAbsent, .idEmpty, .idTooLong, .keyAbsent, .keyLength, .keyNotHex, .keyRejected, .encryptFailed,
      .tcInputLen, .unmappableChar]

end Sys2Proof.Machine
end

