-- ==== Sys2Proof/Certificates/Slice0/Obligations.lean ====
section
/-! DEFINITION. The statements for the provers. A statement about a command says the whole next state: `Claims.done` and
`Claims.failed` write out every field that the end of a command changes (60_exceptions.md R195, R196), so each of them
is also the command's frame. -/

namespace Sys2Proof.Claims

open Sys2Proof.Machine Sys2Proof.Config

/-- `s` after a command that completed with `v` and made the requests `q` (R195): nothing else changes. -/
def done (s : State) (v : Bytes) (q : List Request) : State :=
  { s with
    res := v, status := 0x08, cause := 0x00, deserr := 0x00, scratch := Scratch.cleared, requests := q }

/-- `s` after a command that raised, with the given status registers and requests (R196): nothing else changes. -/
def failed (s : State) (status cause deserr : Byte) (q : List Request) : State :=
  { s with
    res := [], status := status, cause := cause, deserr := deserr, scratch := Scratch.cleared, requests := q }

/-- A text of whitespace only. -/
def AllWs (w : Text) : Prop := ∀ c ∈ w, isws c = true

/-- A text whose first character is no whitespace. -/
def StartsPlain (u : Text) : Prop := ∃ c r, u = c :: r ∧ isws c = false

/-- A text whose last character is no whitespace. -/
def EndsPlain (u : Text) : Prop := ∃ c r, u = r ++ [c] ∧ isws c = false

/-- `f` is the encoding of `u`, character by character (R92). -/
def Encodes (ext : List (CharCode × Byte)) (u : Text) (f : Bytes) : Prop := u.map (cpByte ext) = f.map some

/-- The text register `NORMID` selects (R95). -/
def idText (s : State) : IdSel → Option Text
  | .uid => s.uid
  | .app => s.app

/-- `STATUS` of an `InvalidInput` about the register `NORMID` selects (R193). -/
def invalidStatus : IdSel → Byte
  | .uid => 0x11
  | .app => 0x21

/-- `STATUS` of an `Illegal(UNMAPPABLE_CHAR)` about the register `NORMID` selects (R193). -/
def unmappableStatus : IdSel → Byte
  | .uid => 0x14
  | .app => 0x24

/-- The characters of a key text that are no whitespace (R97). -/
def keyChars (t : Text) : Text := t.filter fun c => !isws c

/-- The unsigned value of a big-endian byte string. -/
def bigEndian (b : Bytes) : Nat := b.foldl (fun n x => 256 * n + x.toNat) 0

/-- A byte string that is not empty and whose leading bit is 0. -/
def LeadingZero (b : Bytes) : Prop := ∃ x r, b = x :: r ∧ x.toNat < 128

/-- `b` is the shortest byte string with leading bit 0 and value `t` (R130). -/
def IsTimeEncoding (b : Bytes) (t : Nat) : Prop :=
  LeadingZero b ∧ bigEndian b = t ∧ ∀ b', LeadingZero b' → bigEndian b' = t → b.length ≤ b'.length

/-- The bit of a byte string at sequence index `p`, most significant bit of each byte first (R13). -/
def bitOf (b : Bytes) (p : Nat) : Nat := (b.getD (p / 8) 0).toNat / 2 ^ (7 - p % 8) % 2

/-- The value of the 6-bit window of a 4-byte string at a 1-indexed start, wrapping modulo 32 (R171). -/
def window (b : Bytes) (start : Nat) : Nat :=
  32 * bitOf b ((start - 1) % 32) + 16 * bitOf b (start % 32) + 8 * bitOf b ((start + 1) % 32) +
    4 * bitOf b ((start + 2) % 32) + 2 * bitOf b ((start + 3) % 32) + bitOf b ((start + 4) % 32)

/-- The code of the character a window value stands for (R170, R171). -/
def tokenCode (v : Nat) : Nat := if v % 36 ≤ 25 then 0x41 + v % 36 else 0x30 + (v % 36 - 26)

/-- `pad1` in odd rounds, `pad2` in even ones (R154, R156). -/
def padHalf (padb : Bytes) (i : Nat) : Bytes := if i % 2 = 1 then padb.take 6 else padb.drop 6

/-- Rounds 1 to `n - 1` of the time coder succeed (R158): `(l i, r i)` are the halves before round `i` and `c i` the DES
unit's answer in it. -/
def RoundsBefore (d : DesUnit) (k padb : Bytes) (l r : Nat → Bytes) (c : Nat → Vector Byte 8) (n : Nat) : Prop :=
  ∀ i, 1 ≤ i → i < n →
    desE d k (r i ++ padHalf padb i) = .ok (c i) ∧ l (i + 1) = r i ∧
    permute (xorv ((c i).toList.take 2) (l i)) i = .ok (r (i + 1))

/-- The requests of rounds 1 to `n` (R136). -/
def roundRequests (k padb : Bytes) (r : Nat → Bytes) (n : Nat) : List Request :=
  (List.range n).map fun j => .desE k (r (j + 1) ++ padHalf padb (j + 1))

/-- The instruction answers a next state whose `STATUS` says completion and whose `RES` is `v`. -/
def Yields (i : Instr) (s : State) (v : Bytes) : Prop := ∃ t, exec i s = .next t ∧ t.status = 0x08 ∧ t.res = v

/-- The number of 1 bits of a byte string. -/
def weight (b : Bytes) : Nat := (bitsOf b).count true

end Sys2Proof.Claims

open Sys2Proof Sys2Proof.Machine Sys2Proof.Config Sys2Proof.Claims

/-- Decoding the encoding of an operation gives it back, with every operand value R73 allows. -/
def Obligations.DecodeOfEncode : Prop :=
  ∀ i : Instr, i.wellFormed = true → decode (encode i) = .ok i

/-- A word that decodes is the encoding of what it decodes to (R71: no word selects two operations). -/
def Obligations.EncodeOfDecode : Prop :=
  ∀ (w : CmdWord) (i : Instr), decode w = .ok i → encode i = w ∧ i.wellFormed = true

/-- R74, R75: a word whose `op` is 0x00 or 0x0E..0xFF raises `Illegal(RESERVED_OPCODE)` whatever its `arg`; a word with
a known `op` and an `arg` outside R73 raises `Illegal(RESERVED_ARG)`. -/
def Obligations.ReservedWordsRaiseIllegal : Prop :=
  ∀ (s : State) (w : CmdWord) (rest : List Event), s.inbox = .cmd w :: rest →
    (w.toNat / 256 = 0 ∨ 14 ≤ w.toNat / 256 →
      step s = .next (failed { s with inbox := rest } 0x04 0x40 0x00 [])) ∧
    ((w.toNat / 256 = 1 ∧ 2 ≤ w.toNat % 256) ∨ (w.toNat / 256 = 11 ∧ w.toNat % 256 = 0) ∨
        (w.toNat / 256 ∈ [2, 3, 4, 5, 6, 7, 8, 10, 12, 13] ∧ w.toNat % 256 ≠ 0) →
      step s = .next (failed { s with inbox := rest } 0x04 0x41 0x00 []))

/-- A few command words of R79 decode to their operations. -/
def Obligations.SpecWordsDecode : Prop :=
  decode 0x0100#16 = .ok (.normid .uid) ∧ decode 0x0101#16 = .ok (.normid .app) ∧ decode 0x0200#16 = .ok .deckey ∧
  decode 0x0300#16 = .ok .encr ∧ decode 0x0400#16 = .ok .xorv ∧ decode 0x0903#16 = .ok (.perm 3) ∧
  decode 0x0A00#16 = .ok .tcode ∧ decode 0x0B1F#16 = .ok (.xlatc 31) ∧ decode 0x0D00#16 = .ok .gen

/-- A step whose next event is a command that decodes to `i` is `exec i`, the event taken (R59, R71; log 1). -/
def Obligations.StepRunsDecodedCommand : Prop :=
  ∀ (s : State) (w : CmdWord) (rest : List Event) (i : Instr),
    s.inbox = .cmd w :: rest → decode w = .ok i → step s = exec i { s with inbox := rest }

/-- R36: the registers after reset. -/
def Obligations.ResetRegisterValues : Prop :=
  State.reset.uid = none ∧ State.reset.app = none ∧ State.reset.khx = none ∧ State.reset.opa = [] ∧
  State.reset.opb = [] ∧ State.reset.key = [] ∧ State.reset.res = [] ∧ State.reset.status = 0x00 ∧
  State.reset.cause = 0x00 ∧ State.reset.deserr = 0x00 ∧ State.reset.scratch = Scratch.cleared

/-- R220: a reset gives every register its reset value. That the clock's port, the platform, the host's pending
transactions and its last reply stay, and that the request record is emptied, is the model's choice (log 13). -/
def Obligations.ResetEventClearsRegisters : Prop :=
  ∀ (s : State) (rest : List Event), s.inbox = .reset :: rest →
    step s = .next
      { uid := none, app := none, khx := none, opa := [], opb := [], key := [], res := [], status := 0x00,
        cause := 0x00, deserr := 0x00, scratch := Scratch.cleared, now := s.now, plat := s.plat, inbox := rest,
        reply := s.reply, requests := [] }

/-- R57: a well-formed `WR` sets its register and changes nothing else; any other is refused. -/
def Obligations.HostWriteSetsRegister : Prop :=
  ∀ (s : State) (n : Nat) (v : RegValue) (rest : List Event), s.inbox = .wr n v :: rest →
    let s' : State := { s with inbox := rest }
    (∀ x, (∀ t ∈ x, t.length ≤ 64) → v = .text x →
      (n = 0 → step s = .next { s' with uid := x }) ∧ (n = 1 → step s = .next { s' with app := x }) ∧
      (n = 2 → step s = .next { s' with khx := x })) ∧
    (∀ b, b.length ≤ 16 → v = .bytes b →
      (n = 3 → step s = .next { s' with opa := b }) ∧ (n = 4 → step s = .next { s' with opb := b }) ∧
      (n = 5 → step s = .next { s' with key := b })) ∧
    (¬ (n ≤ 2 ∧ ∃ x, v = .text x ∧ ∀ t ∈ x, t.length ≤ 64) →
      ¬ (3 ≤ n ∧ n ≤ 5 ∧ ∃ b, v = .bytes b ∧ b.length ≤ 16) → step s = .refused (.illFormedWrite n))

/-- R58: an `RD` of a register 0 to 10 gives the host its whole value and changes nothing of PTG; an `RD` of a higher
number is refused. That the value is held in `reply` is the model's choice (log 11). -/
def Obligations.HostReadDelivers : Prop :=
  ∀ (s : State) (n : Nat) (rest : List Event), s.inbox = .rd n :: rest →
    (∀ v, [RegValue.text s.uid, .text s.app, .text s.khx, .bytes s.opa, .bytes s.opb, .bytes s.key, .bytes s.res,
        .byte s.status, .byte s.cause, .byte s.deserr, .time s.now][n]? = some v →
      step s = .next { s with inbox := rest, reply := some v }) ∧
    (11 ≤ n → step s = .refused (.illFormedRead n))

/-- With nothing pending a step changes nothing, and a clock event changes the port alone. Both are the model's choice
(log 2, log 4). -/
def Obligations.IdleAndClockSteps : Prop :=
  ∀ s : State, (s.inbox = [] → step s = .next s) ∧
    ∀ (t : Time) (rest : List Event), s.inbox = .clock t :: rest → step s = .next { s with inbox := rest, now := t }

/-- R190: every command, a reserved word's too, ends in one of two ways, completion (R195) or exactly one error
(R196). -/
def Obligations.EveryCommandCompletesOrRaises : Prop :=
  (∀ (i : Instr) (s : State),
    (∃ v q, exec i s = .next (done s v q)) ∨
    (∃ (c : Cause) (src : Src) (code : Byte) (q : List Request), (c.kind ≠ .cryptoError → code = 0x00) ∧
      exec i s = .next (failed s (c.kind.code ||| (src.code <<< 4)) c.code code q))) ∧
  ∀ (s : State) (w : CmdWord) (rest : List Event), s.inbox = .cmd w :: rest →
    (∃ v q, step s = .next (done { s with inbox := rest } v q)) ∨
    (∃ (c : Cause) (src : Src) (code : Byte) (q : List Request), (c.kind ≠ .cryptoError → code = 0x00) ∧
      step s = .next (failed { s with inbox := rest } (c.kind.code ||| (src.code <<< 4)) c.code code q))

/-- The table of R194: an operation reports no cause outside its row, and `GEN` reports `TC_INPUT_LEN` only under
`FAULT`. -/
def Obligations.RaisesOnlyListedCauses : Prop :=
  ∀ (i : Instr) (s t : State), i.wellFormed = true → exec i s = .next t → t.status ≠ 0x08 →
    (∃ c ∈ canRaise i, t.cause = c.code) ∧
    (i = .gen → s.plat.timeWide = .low4 → t.cause ≠ 0x30)

/-- After any command word `STATUS` and `CAUSE` are one of the pairs of R193 and R192, and `DESERR` is 0 but for a
`CryptoError`. -/
def Obligations.StatusAndCauseAgree : Prop :=
  ∀ (s : State) (w : CmdWord) (rest : List Event) (t : State), s.inbox = .cmd w :: rest → step s = .next t →
    (t.status = 0x08 ∧ t.cause = 0x00 ∧ t.deserr = 0x00) ∨
    (t.status ∈ [0x11#8, 0x21#8] ∧ t.cause ∈ [0x01#8, 0x02#8, 0x03#8] ∧ t.deserr = 0x00) ∨
    (t.status = 0x31 ∧ t.cause ∈ [0x04#8, 0x05#8, 0x06#8] ∧ t.deserr = 0x00) ∨
    (t.status = 0x02 ∧ t.cause ∈ [0x20#8, 0x21#8]) ∨
    (t.status = 0x03 ∧ t.cause ∈ [0x30#8, 0x31#8, 0x32#8, 0x33#8] ∧ t.deserr = 0x00) ∨
    (t.status = 0x04 ∧ t.cause ∈ [0x40#8, 0x41#8, 0x42#8] ∧ t.deserr = 0x00) ∨
    (t.status = 0x14 ∧ t.cause ∈ [0x43#8, 0x44#8] ∧ t.deserr = 0x00) ∨
    (t.status = 0x24 ∧ t.cause = 0x44 ∧ t.deserr = 0x00)

/-- The numbers of R192: each cause with its kind and its code. -/
def Obligations.CauseNumbers : Prop :=
  [Cause.idAbsent, .idEmpty, .idTooLong, .keyAbsent, .keyLength, .keyNotHex, .keyRejected, .encryptFailed, .tcInputLen,
    .permInputLen, .permRound, .padUidLen, .reservedOpcode, .reservedArg, .operandLength, .operandAbsent,
    .unmappableChar].map (fun c => (c.kind.code.toNat, c.code.toNat)) =
  [(1, 0x01), (1, 0x02), (1, 0x03), (1, 0x04), (1, 0x05), (1, 0x06), (2, 0x20), (2, 0x21), (3, 0x30), (3, 0x31),
    (3, 0x32), (3, 0x33), (4, 0x40), (4, 0x41), (4, 0x42), (4, 0x43), (4, 0x44)]

/-- R25: after any command word, completed or raised, the operand registers hold what they held before it. -/
def Obligations.CommandsKeepOperands : Prop :=
  ∀ (s : State) (w : CmdWord) (rest : List Event) (t : State), s.inbox = .cmd w :: rest → step s = .next t →
    t.uid = s.uid ∧ t.app = s.app ∧ t.khx = s.khx ∧ t.opa = s.opa ∧ t.opb = s.opb ∧ t.key = s.key

/-- R35: what a command writes is a function of the registers in its row of R26, the clock's value and the platform:
not of earlier commands, of `RES`, of the status registers or of scratch. -/
def Obligations.OutcomeDependsOnRowOnly : Prop :=
  ∀ (i : Instr) (s₁ s₂ t₁ t₂ : State),
    (∀ r ∈ reads i, s₁.readReg r = s₂.readReg r) → s₁.plat = s₂.plat →
    exec i s₁ = .next t₁ → exec i s₂ = .next t₂ →
    t₁.res = t₂.res ∧ t₁.status = t₂.status ∧ t₁.cause = t₂.cause ∧ t₁.deserr = t₂.deserr ∧
      t₁.requests = t₂.requests

/-- `NORMID` (R94, R95) completes on leading whitespace followed by at most 8 mappable characters, the first no
whitespace: their codes, padded with 0x40 to 8 bytes. -/
def Obligations.NormidField : Prop :=
  ∀ (sel : IdSel) (s : State) (w u : Text) (f : Bytes),
    idText s sel = some (w ++ u) → AllWs w → StartsPlain u → Encodes s.plat.cpExt u f → u.length ≤ 8 →
    exec (.normid sel) s = .next (done s (f ++ List.replicate (8 - u.length) 0x40) [])

/-- `NORMID` (R94, R95) raises: absent, whitespace only, an unmappable character, more than 8 characters. -/
def Obligations.NormidErrors : Prop :=
  ∀ (sel : IdSel) (s : State),
    (idText s sel = none → exec (.normid sel) s = .next (failed s (invalidStatus sel) 0x01 0x00 [])) ∧
    (∀ w, idText s sel = some w → AllWs w →
      exec (.normid sel) s = .next (failed s (invalidStatus sel) 0x02 0x00 [])) ∧
    (∀ w u, idText s sel = some (w ++ u) → AllWs w → StartsPlain u → (∃ c ∈ u, cpByte s.plat.cpExt c = none) →
      exec (.normid sel) s = .next (failed s (unmappableStatus sel) 0x44 0x00 [])) ∧
    (∀ w u f, idText s sel = some (w ++ u) → AllWs w → StartsPlain u → Encodes s.plat.cpExt u f → 8 < u.length →
      exec (.normid sel) s = .next (failed s (invalidStatus sel) 0x03 0x00 []))

/-- R99: under the decided `CP_EXT` a field that `NORMID` completes with is 8 bytes long and does not begin with the
code of the space. -/
def Obligations.NormidFieldStartsPlain : Prop :=
  ∀ (sel : IdSel) (s : State) (f : Bytes), s.plat.cpExt = lowerCase → Yields (.normid sel) s f →
    f.length = 8 ∧ ∃ b r, f = b :: r ∧ b ≠ 0x40

/-- `DECKEY` (R97, R98): 16 hex digits, whitespace anywhere; each pair makes a byte, the first digit its high half; the
DES unit is asked once, and the key completes or is rejected with the unit's code. -/
def Obligations.DeckeyKeyBytes : Prop :=
  ∀ (s : State) (t : Text) (digits : List Nat),
    s.khx = some t → (keyChars t).map hexval = digits.map some → digits.length = 16 →
    ∃ k : Bytes, k.length = 8 ∧
      (∀ i, i < 8 → (k.getD i 0).toNat = 16 * digits.getD (2 * i) 0 + digits.getD (2 * i + 1) 0) ∧
      (desKs s.plat.des k = .ok → exec .deckey s = .next (done s k [.desKs k])) ∧
      (∀ code, desKs s.plat.des k = .fail code → exec .deckey s = .next (failed s 0x02 0x20 code [.desKs k]))

/-- `DECKEY` (R97, R98) raises before it asks the DES unit anything: absent, not 16 characters, not all hex digits. -/
def Obligations.DeckeyErrors : Prop :=
  ∀ s : State,
    (s.khx = none → exec .deckey s = .next (failed s 0x31 0x04 0x00 [])) ∧
    (∀ t, s.khx = some t → (keyChars t).length ≠ 16 → exec .deckey s = .next (failed s 0x31 0x05 0x00 [])) ∧
    (∀ t, s.khx = some t → (keyChars t).length = 16 → (∃ c ∈ keyChars t, hexval c = none) →
      exec .deckey s = .next (failed s 0x31 0x06 0x00 []))

/-- Two key texts with the same digit values, whatever their spacing and the case of their letters, have the same
outcome (R96, R97). -/
def Obligations.DeckeyIgnoresCaseAndSpacing : Prop :=
  ∀ (s t₁ t₂ : State) (a b : Text), (keyChars a).map hexval = (keyChars b).map hexval →
    exec .deckey { s with khx := some a } = .next t₁ → exec .deckey { s with khx := some b } = .next t₂ →
    t₂ = { t₁ with khx := some b }

/-- `ENCR` (R115) completes with the DES unit's answer when both operands are 8 bytes and the unit accepts them. -/
def Obligations.EncrCompletes : Prop :=
  ∀ (s : State) (c : Vector Byte 8), s.key.length = 8 → s.opa.length = 8 →
    desKs s.plat.des s.key = .ok → desE s.plat.des s.key s.opa = .ok c →
    exec .encr s = .next (done s c.toList [.desKs s.key, .desE s.key s.opa])

/-- `ENCR` (R113, R115) raises: a wrong length before any request, then a rejected key, then a failed encryption, the
unit's code in `DESERR`. -/
def Obligations.EncrErrors : Prop :=
  ∀ s : State,
    (s.key.length ≠ 8 ∨ s.opa.length ≠ 8 → exec .encr s = .next (failed s 0x04 0x42 0x00 [])) ∧
    (s.key.length = 8 → s.opa.length = 8 →
      (∀ code, desKs s.plat.des s.key = .fail code → exec .encr s = .next (failed s 0x02 0x20 code [.desKs s.key])) ∧
      (∀ code, desKs s.plat.des s.key = .ok → desE s.plat.des s.key s.opa = .fail code →
        exec .encr s = .next (failed s 0x02 0x21 code [.desKs s.key, .desE s.key s.opa])))

/-- `XORV` (R120, R121) completes: the longer operand's length, XOR on the common prefix, the longer operand's tail; it
commutes. -/
def Obligations.XorvResult : Prop :=
  ∀ s : State, ∃ v : Bytes, exec .xorv s = .next (done s v []) ∧
    v.length = max s.opa.length s.opb.length ∧
    (∀ i, i < s.opa.length → i < s.opb.length → v.getD i 0 = s.opa.getD i 0 ^^^ s.opb.getD i 0) ∧
    (∀ i, s.opb.length ≤ i → i < s.opa.length → v.getD i 0 = s.opa.getD i 0) ∧
    (∀ i, s.opa.length ≤ i → i < s.opb.length → v.getD i 0 = s.opb.getD i 0) ∧
    (s.opb = [] → v = s.opa) ∧ (s.opb = s.opa → v = List.replicate s.opa.length 0x00) ∧
    exec .xorv { s with opa := s.opb, opb := s.opa } = .next (done { s with opa := s.opb, opb := s.opa } v [])

/-- `BITS` (R122, R123) completes: one byte, 0x00 or 0x01, for each bit, most significant bit of each byte first. -/
def Obligations.BitsResult : Prop :=
  ∀ s : State, ∃ v : Bytes, exec .bits s = .next (done s v []) ∧ v.length = 8 * s.opa.length ∧
    ∀ i j, i < s.opa.length → j < 8 →
      (v.getD (8 * i + j) 0).toNat = (s.opa.getD i 0).toNat / 2 ^ (7 - j) % 2

/-- R124: `pack` makes a byte of each group of eight bits, first bit most significant, and is the inverse of expanding,
both ways. -/
def Obligations.PackInvertsBits : Prop :=
  (∀ b : Bytes, pack (bitsOf b) = b) ∧
  ∀ v : Bits, v.length % 8 = 0 →
    bitsOf (pack v) = v ∧ 8 * (pack v).length = v.length ∧
    ∀ i, 8 * i < v.length → ((pack v).getD i 0).toNat =
      ((List.range 8).map fun j => (v.getD (8 * i + j) false).toNat * 2 ^ (7 - j)).sum

/-- `TENC` (R130, R132) completes with the shortest big-endian string whose leading bit is 0 and whose value is the
sampled time: 1 to 8 bytes, 4 exactly from 2^23 to 2^31 - 1. -/
def Obligations.TencResult : Prop :=
  ∀ s : State, ∃ v : Bytes, exec .tenc s = .next (done s v [.sample]) ∧ IsTimeEncoding v s.now.toNat ∧
    1 ≤ v.length ∧ v.length ≤ 8 ∧ (v.length = 4 ↔ 2 ^ 23 ≤ s.now.toNat ∧ s.now.toNat < 2 ^ 31)

/-- `TMIX` (R131, R133) completes on a 4-byte `OPA`: before 2^31 the time covers its leftmost bytes; from 2^31 on,
under `LOW4` it is XORed with the low 32 bits of the time, under `FAULT` with the whole encoding. -/
def Obligations.TmixResult : Prop :=
  ∀ (s : State) (tb : Bytes), s.opa.length = 4 → IsTimeEncoding tb s.now.toNat →
    ∃ v : Bytes, exec .tmix s = .next (done s v [.sample]) ∧
      (s.now.toNat < 2 ^ 31 → v.length = 4 ∧
        (∀ i, i < tb.length → v.getD i 0 = s.opa.getD i 0 ^^^ tb.getD i 0) ∧
        (∀ i, tb.length ≤ i → v.getD i 0 = s.opa.getD i 0)) ∧
      (2 ^ 31 ≤ s.now.toNat → s.plat.timeWide = .low4 → v.length = 4 ∧
        ∀ i, i < 4 → v.getD i 0 = s.opa.getD i 0 ^^^ BitVec.ofNat 8 (s.now.toNat / 256 ^ (3 - i))) ∧
      (2 ^ 31 ≤ s.now.toNat → s.plat.timeWide = .fault → v.length = tb.length ∧
        (∀ i, i < 4 → v.getD i 0 = s.opa.getD i 0 ^^^ tb.getD i 0) ∧
        (∀ i, 4 ≤ i → v.getD i 0 = tb.getD i 0))

/-- `TMIX`, `XLATC`, `XLAT` (R133, R172, R174) raise `Illegal(OPERAND_LENGTH)` on an `OPA` that is not 4 bytes long,
`TMIX` without sampling the clock. -/
def Obligations.FourByteOperandRequired : Prop :=
  ∀ s : State, s.opa.length ≠ 4 →
    exec .tmix s = .next (failed s 0x04 0x42 0x00 []) ∧ exec .xlat s = .next (failed s 0x04 0x42 0x00 []) ∧
    ∀ start : BitVec 8, start ≠ 0 → exec (.xlatc start) s = .next (failed s 0x04 0x42 0x00 [])

/-- `TPAD` (R154, R155) completes on at most 12 mappable characters between whitespace: their codes, filled with 0x55
to 12 bytes. -/
def Obligations.TpadResult : Prop :=
  ∀ (s : State) (w u w' : Text) (f : Bytes),
    s.uid = some (w ++ u ++ w') → AllWs w → AllWs w' → (u = [] ∨ StartsPlain u ∧ EndsPlain u) →
    Encodes s.plat.cpExt u f → u.length ≤ 12 →
    exec .tpad s = .next (done s (f ++ List.replicate (12 - u.length) 0x55) [])

/-- `TPAD` (R154, R155) raises: an absent user id, an unmappable character, more than 12 characters. -/
def Obligations.TpadErrors : Prop :=
  ∀ s : State,
    (s.uid = none → exec .tpad s = .next (failed s 0x14 0x43 0x00 [])) ∧
    (∀ w u w', s.uid = some (w ++ u ++ w') → AllWs w → AllWs w' → StartsPlain u → EndsPlain u →
      ((∃ c ∈ u, cpByte s.plat.cpExt c = none) → exec .tpad s = .next (failed s 0x14 0x44 0x00 [])) ∧
      (∀ f, Encodes s.plat.cpExt u f → 12 < u.length → exec .tpad s = .next (failed s 0x03 0x33 0x00 [])))

/-- `PERM` (R152, R153) completes on two bytes and a round 1..6: output bit `k` is the input bit at the 1-indexed
position `row[k]` of the round's table. -/
def Obligations.PermResult : Prop :=
  ∀ (s : State) (round : BitVec 8) (row : List Nat), s.opa.length = 2 → permRow round.toNat = some row →
    ∃ v : Bytes, exec (.perm round) s = .next (done s v []) ∧ v.length = 2 ∧
      ∀ k, k < 16 → bitOf v k = bitOf s.opa (row.getD k 0 - 1)

/-- `PERM` (R152, R153) raises: not two bytes (whatever the round), else a round outside 1..6. -/
def Obligations.PermErrors : Prop :=
  ∀ (s : State) (round : BitVec 8),
    (s.opa.length ≠ 2 → exec (.perm round) s = .next (failed s 0x03 0x31 0x00 [])) ∧
    (s.opa.length = 2 → (round.toNat = 0 ∨ 7 ≤ round.toNat) →
      exec (.perm round) s = .next (failed s 0x03 0x32 0x00 []))

/-- `PERM` moves bits and changes none: the number of 1 bits stays (R152). -/
def Obligations.PermKeepsWeight : Prop :=
  ∀ (s : State) (round : BitVec 8) (v : Bytes), Yields (.perm round) s v → weight v = weight s.opa

/-- The six tables of R151, each a permutation of the positions 1..16; there is no table for another round. -/
def Obligations.PermTables : Prop :=
  permRow 1 = some [10, 2, 12, 4, 14, 6, 16, 8, 9, 1, 11, 3, 13, 5, 15, 7] ∧
  permRow 2 = some [1, 10, 3, 12, 13, 16, 7, 15, 9, 2, 11, 4, 5, 14, 8, 6] ∧
  permRow 3 = some [3, 10, 1, 12, 13, 16, 9, 15, 7, 2, 14, 4, 5, 11, 8, 6] ∧
  permRow 4 = some [10, 4, 12, 2, 14, 8, 16, 6, 9, 1, 13, 3, 11, 5, 15, 7] ∧
  permRow 5 = some [4, 10, 12, 1, 8, 16, 14, 5, 9, 2, 13, 3, 11, 7, 15, 6] ∧
  permRow 6 = some [1, 16, 15, 14, 13, 12, 11, 10, 9, 8, 7, 6, 5, 4, 3, 2] ∧
  (∀ i row, permRow i = some row → 1 ≤ i ∧ i ≤ 6 ∧ row.Perm ((List.range 16).map (· + 1)))

/-- `TCODE` (R156 to R158) completes with `L ++ R` after six rounds: the block of round `i` is the old `R` with
`pad_i`, the new `L` is the old `R`, the new `R` the permuted XOR of the answer's leftmost two bytes with the old `L`. -/
def Obligations.TcodeSixRounds : Prop :=
  ∀ (s : State) (t : Text) (padb : Bytes) (l r : Nat → Bytes) (c : Nat → Vector Byte 8),
    s.key.length = 8 → s.uid = some t → s.opa.length = 4 → tcPad s.plat.cpExt t = .ok padb →
    desKs s.plat.des s.key = .ok → l 1 = s.opa.take 2 → r 1 = s.opa.drop 2 →
    RoundsBefore s.plat.des s.key padb l r c 7 →
    exec .tcode s = .next (done s (l 7 ++ r 7) (.desKs s.key :: roundRequests s.key padb r 6))

/-- `TCODE` (R157) raises, in its order of test: key length, absent user id, input length, padding, rejected key, a
failed encryption in some round. -/
def Obligations.TcodeErrors : Prop :=
  ∀ s : State,
    (s.key.length ≠ 8 → exec .tcode s = .next (failed s 0x04 0x42 0x00 [])) ∧
    (s.key.length = 8 → s.uid = none → exec .tcode s = .next (failed s 0x14 0x43 0x00 [])) ∧
    (∀ t, s.key.length = 8 → s.uid = some t →
      (s.opa.length ≠ 4 → exec .tcode s = .next (failed s 0x03 0x30 0x00 [])) ∧
      (s.opa.length = 4 →
        (tcPad s.plat.cpExt t = .error .unmappableChar → exec .tcode s = .next (failed s 0x14 0x44 0x00 [])) ∧
        (tcPad s.plat.cpExt t = .error .padUidLen → exec .tcode s = .next (failed s 0x03 0x33 0x00 [])) ∧
        (∀ padb, tcPad s.plat.cpExt t = .ok padb →
          (∀ code, desKs s.plat.des s.key = .fail code →
            exec .tcode s = .next (failed s 0x02 0x20 code [.desKs s.key])) ∧
          (∀ (l r : Nat → Bytes) (c : Nat → Vector Byte 8) (n : Nat) (code : Byte),
            desKs s.plat.des s.key = .ok → l 1 = s.opa.take 2 → r 1 = s.opa.drop 2 → 1 ≤ n → n ≤ 6 →
            RoundsBefore s.plat.des s.key padb l r c n →
            desE s.plat.des s.key (r n ++ padHalf padb n) = .fail code →
            exec .tcode s = .next (failed s 0x02 0x21 code (.desKs s.key :: roundRequests s.key padb r n))))))

/-- For one key, user id and platform, two inputs on which `TCODE` completes with the same result are equal (R156: the
time coder is a bijection on 4-byte values). -/
def Obligations.TcodeInjective : Prop :=
  ∀ (s : State) (a b v : Bytes), Yields .tcode { s with opa := a } v → Yields .tcode { s with opa := b } v → a = b

/-- `XLATC` (R171, R172) completes with the character of the window at `start`, which wraps: `start + 32` gives the
same. -/
def Obligations.XlatcResult : Prop :=
  ∀ (s : State) (start : BitVec 8), s.opa.length = 4 → start ≠ 0 →
    ∃ c : Byte, exec (.xlatc start) s = .next (done s [c] []) ∧ c.toNat = tokenCode (window s.opa start.toNat) ∧
      (start.toNat + 32 ≤ 255 → exec (.xlatc (start + 32)) s = .next (done s [c] []))

/-- `XLAT` (R173, R174) completes with the characters of the windows at 31, 3, 7, 11, 15, 19, 23, 27. -/
def Obligations.XlatResult : Prop :=
  ∀ s : State, s.opa.length = 4 →
    ∃ v : Bytes, exec .xlat s = .next (done s v []) ∧
      v.map BitVec.toNat = [31, 3, 7, 11, 15, 19, 23, 27].map fun start => tokenCode (window s.opa start)

/-- `GEN` (R134, R135) completes with the token of its six steps and makes the requests R136 lists, in that order. -/
def Obligations.GenCompletes : Prop :=
  ∀ (s : State) (t : Text) (uidf appf kw padb r4 : Bytes) (r1 r2 : Vector Byte 8) (l r : Nat → Bytes)
    (c : Nat → Vector Byte 8),
    s.uid = some t → normalizeIdentifier s.plat.cpExt s.uid = .ok uidf →
    normalizeIdentifier s.plat.cpExt s.app = .ok appf → decodeKeyBytes s.khx = .ok kw → desKs s.plat.des kw = .ok →
    desE s.plat.des kw uidf = .ok r1 → desE s.plat.des kw (xorv r1.toList appf) = .ok r2 →
    timeMix s.plat.timeWide (r2.toList.take 4) s.now.toNat = r4 → r4.length = 4 →
    tcPad s.plat.cpExt t = .ok padb → l 1 = r4.take 2 → r 1 = r4.drop 2 → RoundsBefore s.plat.des kw padb l r c 7 →
    exec .gen s = .next (done s (translateAll (l 7 ++ r 7))
      ([.desKs kw, .desE kw uidf, .desE kw (xorv r1.toList appf), .sample] ++ roundRequests kw padb r 6))

/-- `GEN` (R134 to R136) is abandoned where an encryption fails, the trace ending at the failing request, and, under
`FAULT`, where Result4 is not 4 bytes long. -/
def Obligations.GenAborts : Prop :=
  ∀ (s : State) (uidf appf kw : Bytes),
    normalizeIdentifier s.plat.cpExt s.uid = .ok uidf → normalizeIdentifier s.plat.cpExt s.app = .ok appf →
    decodeKeyBytes s.khx = .ok kw → desKs s.plat.des kw = .ok →
    (∀ code, desE s.plat.des kw uidf = .fail code →
      exec .gen s = .next (failed s 0x02 0x21 code [.desKs kw, .desE kw uidf])) ∧
    (∀ r1, desE s.plat.des kw uidf = .ok r1 →
      (∀ code, desE s.plat.des kw (xorv r1.toList appf) = .fail code →
        exec .gen s = .next (failed s 0x02 0x21 code [.desKs kw, .desE kw uidf, .desE kw (xorv r1.toList appf)])) ∧
      (∀ r2 r4, desE s.plat.des kw (xorv r1.toList appf) = .ok r2 →
        timeMix s.plat.timeWide (r2.toList.take 4) s.now.toNat = r4 →
        (r4.length ≠ 4 → exec .gen s = .next
          (failed s 0x03 0x30 0x00 [.desKs kw, .desE kw uidf, .desE kw (xorv r1.toList appf), .sample])) ∧
        (∀ (t : Text) (padb : Bytes) (l r : Nat → Bytes) (c : Nat → Vector Byte 8) (n : Nat) (code : Byte),
          r4.length = 4 → s.uid = some t → tcPad s.plat.cpExt t = .ok padb → l 1 = r4.take 2 → r 1 = r4.drop 2 →
          1 ≤ n → n ≤ 6 → RoundsBefore s.plat.des kw padb l r c n →
          desE s.plat.des kw (r n ++ padHalf padb n) = .fail code →
          exec .gen s = .next (failed s 0x02 0x21 code
            ([.desKs kw, .desE kw uidf, .desE kw (xorv r1.toList appf), .sample] ++ roundRequests kw padb r n)))))

/-- `GEN` reports the first error of its validation, and a rejected key, as the unit operations report it on the same
registers (R191, R197): `UID` before `APP` before `KHX`, with the same registers written and the same requests. -/
def Obligations.GenFailsLikeItsUnits : Prop :=
  ∀ s t : State,
    (exec (.normid .uid) s = .next t → t.status ≠ 0x08 → exec .gen s = .next t) ∧
    (∀ f, Yields (.normid .uid) s f → exec (.normid .app) s = .next t → t.status ≠ 0x08 → exec .gen s = .next t) ∧
    (∀ f a, Yields (.normid .uid) s f → Yields (.normid .app) s a → exec .deckey s = .next t → t.status ≠ 0x08 →
      exec .gen s = .next t)

/-- R137 (a): a token is 8 characters of `A`..`Z`, `0`..`9`. -/
def Obligations.GenTokenAlphabet : Prop :=
  ∀ (s : State) (v : Bytes), Yields .gen s v →
    v.length = 8 ∧ ∀ c ∈ v, (0x41 ≤ c.toNat ∧ c.toNat ≤ 0x5A) ∨ (0x30 ≤ c.toNat ∧ c.toNat ≤ 0x39)

/-- `GEN` yields a token exactly when the unit operations, each result carried to the next operand register by the
host, yield it (R134; program P3 of 95_test_vectors.md): the two paths sample the same time. -/
def Obligations.GenFromUnitOperations : Prop :=
  ∀ (s : State) (v : Bytes),
    Yields .gen s v ↔
    ∃ f a k r1 r2a r2 r4 r5 : Bytes,
      Yields (.normid .uid) s f ∧ Yields (.normid .app) s a ∧ Yields .deckey s k ∧
      Yields .encr { s with opa := f, key := k } r1 ∧ Yields .xorv { s with opa := r1, opb := a } r2a ∧
      Yields .encr { s with opa := r2a, key := k } r2 ∧ Yields .tmix { s with opa := r2.take 4 } r4 ∧
      Yields .tcode { s with opa := r4, key := k } r5 ∧ Yields .xlat { s with opa := r5 } v

/-- `GEN` run whole is `GEN` run by the sequencer, thirteen steps of `STEP` and `RND` (R33, R134, R158; log 14). -/
def Obligations.GenSequencerRefines : Prop :=
  ∀ s : State, ∃ t, exec .gen s = .next t ∧ runTicks genTick 13 (genStart s) = .over t

/-- `TCODE` run whole is `TCODE` run by the sequencer, six rounds and the end (R33, R158; log 14). -/
def Obligations.TcodeSequencerRefines : Prop :=
  ∀ s : State, ∃ t, exec .tcode s = .next t ∧ runTicks tcodeTick 7 (tcodeStart s) = .over t

/-- A reset in the middle of `GEN` or `TCODE` leaves what a reset before it would have left (R220): no result, no
scratch, no request of the abandoned command. -/
def Obligations.ResetAbandonsCommand : Prop :=
  ∀ (s : State) (n : Nat),
    applyReset (runTicks genTick n (genStart s)).state = applyReset s ∧
    applyReset (runTicks tcodeTick n (tcodeStart s)).state = applyReset s

/-- The state after reset meets the invariant. -/
def Obligations.ResetMeetsInv : Prop := State.reset.Inv

/-- Every step keeps the invariant (R21 to R24, R28, R32, U11): capacities, coherent status registers, cleared
scratch. -/
def Obligations.StepKeepsInv : Prop :=
  ∀ s t : State, s.Inv → step s = .next t → t.Inv

/-- From a safe state (the invariant, and only well-formed transactions pending) a step never stops, and it leads to a
safe state (R59, R190, R229). -/
def Obligations.SafeRunsNeverStop : Prop :=
  ∀ s : State, s.Safe → ∃ t, step s = .next t ∧ t.Safe

/-- Only the host's writes and reset change an operand register (R25, R57, R220); in particular the key text and the
key stay until then. -/
def Obligations.OperandsChangeOnlyByHostOrReset : Prop :=
  ∀ s t : State, step s = .next t →
    ¬ (t.uid = s.uid ∧ t.app = s.app ∧ t.khx = s.khx ∧ t.opa = s.opa ∧ t.opb = s.opb ∧ t.key = s.key) →
    ∃ rest, s.inbox = .reset :: rest ∨ ∃ n v, s.inbox = .wr n v :: rest

/-- Only commands and reset change `RES` and the status registers (R57, R58, R195, R196), and no step changes the
platform (log 7). -/
def Obligations.ResultsChangeOnlyByCommandOrReset : Prop :=
  ∀ s t : State, step s = .next t →
    t.plat = s.plat ∧
    (¬ (t.res = s.res ∧ t.status = s.status ∧ t.cause = s.cause ∧ t.deserr = s.deserr) →
      ∃ rest, s.inbox = .reset :: rest ∨ ∃ w, s.inbox = .cmd w :: rest)

/-- The standard DES does not read the parity bits of the key, the least significant bit of each byte (R181, R185;
log 20). -/
def Obligations.StandardDesIgnoresParity : Prop :=
  ∀ k k' b : Bytes, k.length = 8 → k'.length = 8 → (∀ i, i < 8 → k.getD i 0 >>> 1 = k'.getD i 0 >>> 1) →
    stdDesE k b = stdDesE k' b

/-- With the standard DES behind the port no operation ends in a `CryptoError` (R185; log 20). -/
def Obligations.StandardDesNeverFails : Prop :=
  ∀ (i : Instr) (s t : State), s.plat.des = .standard → exec i s = .next t → kindField t.status ≠ 2

/-- The character tables by their formulas: the code page with its extension of lower-case letters, one to one (R90,
R91), the whitespace set (R93), the hex digits (R96). The codes are in part the spec's from general knowledge (log 19). -/
def Obligations.CharacterTables : Prop :=
  ∀ c : CharCode,
    (cpByte lowerCase c).map BitVec.toNat =
      (if c.toNat = 32 then some 64
       else if 48 ≤ c.toNat ∧ c.toNat ≤ 57 then some (240 + (c.toNat - 48))
       else if 65 ≤ c.toNat ∧ c.toNat ≤ 73 then some (193 + (c.toNat - 65))
       else if 74 ≤ c.toNat ∧ c.toNat ≤ 82 then some (209 + (c.toNat - 74))
       else if 83 ≤ c.toNat ∧ c.toNat ≤ 90 then some (226 + (c.toNat - 83))
       else if 97 ≤ c.toNat ∧ c.toNat ≤ 105 then some (129 + (c.toNat - 97))
       else if 106 ≤ c.toNat ∧ c.toNat ≤ 114 then some (145 + (c.toNat - 106))
       else if 115 ≤ c.toNat ∧ c.toNat ≤ 122 then some (162 + (c.toNat - 115))
       else none) ∧
    (cpByte [] c = none ↔ ¬ (c.toNat = 32 ∨ 48 ≤ c.toNat ∧ c.toNat ≤ 57 ∨ 65 ≤ c.toNat ∧ c.toNat ≤ 90)) ∧
    (∀ c' b, cpByte lowerCase c = some b → cpByte lowerCase c' = some b → c = c') ∧
    (isws c = true ↔ 9 ≤ c.toNat ∧ c.toNat ≤ 13 ∨ c.toNat = 32) ∧
    hexval c =
      (if 48 ≤ c.toNat ∧ c.toNat ≤ 57 then some (c.toNat - 48)
       else if 65 ≤ c.toNat ∧ c.toNat ≤ 70 then some (c.toNat - 65 + 10)
       else if 97 ≤ c.toNat ∧ c.toNat ≤ 102 then some (c.toNat - 97 + 10)
       else none)

/-- `STEP` and `RND` advance by one and never go back (R33): `GEN` begins at step 1 and `TCODE` at round 1, each tick that
does not end the command advances exactly one of the two by one, `TCODE` never moves `STEP`, and neither counts beyond
step 6 and the final `RND` = 7 of R158. The ticks are the model's choice (log 14). -/
def Obligations.CountersOnlyAdvance : Prop :=
  ∀ s t : State,
    (genStart s = .running t → t.scratch.step = 1 ∧ t.scratch.rnd = 0) ∧
    (genTick s = .running t →
      (t.scratch.step = s.scratch.step + 1 ∧ t.scratch.rnd = s.scratch.rnd ∧ t.scratch.step ≤ 6) ∨
      (t.scratch.step = s.scratch.step ∧ t.scratch.rnd = s.scratch.rnd + 1 ∧ t.scratch.rnd ≤ 7)) ∧
    (tcodeStart s = .running t → t.scratch.step = 0 ∧ t.scratch.rnd = 1) ∧
    (tcodeTick s = .running t →
      t.scratch.step = s.scratch.step ∧ t.scratch.rnd = s.scratch.rnd + 1 ∧ t.scratch.rnd ≤ 7)
end

