-- ==== Sys2Proof/Laws/State.lean ====
section
/-! SUPPORT. What each update of the state does to each field, so that no proof unfolds an update. -/

namespace Sys2Proof.Machine

section
variable (s : State) (v : Bytes) (q : List Request)

@[simp] theorem complete_uid : (s.complete v q).uid = s.uid := rfl
@[simp] theorem complete_app : (s.complete v q).app = s.app := rfl
@[simp] theorem complete_khx : (s.complete v q).khx = s.khx := rfl
@[simp] theorem complete_opa : (s.complete v q).opa = s.opa := rfl
@[simp] theorem complete_opb : (s.complete v q).opb = s.opb := rfl
@[simp] theorem complete_key : (s.complete v q).key = s.key := rfl
@[simp] theorem complete_res : (s.complete v q).res = v := rfl
@[simp] theorem complete_status : (s.complete v q).status = statusDone := rfl
@[simp] theorem complete_cause : (s.complete v q).cause = 0x00 := rfl
@[simp] theorem complete_deserr : (s.complete v q).deserr = 0x00 := rfl
@[simp] theorem complete_scratch : (s.complete v q).scratch = Scratch.cleared := rfl
@[simp] theorem complete_now : (s.complete v q).now = s.now := rfl
@[simp] theorem complete_plat : (s.complete v q).plat = s.plat := rfl
@[simp] theorem complete_inbox : (s.complete v q).inbox = s.inbox := rfl
@[simp] theorem complete_reply : (s.complete v q).reply = s.reply := rfl
@[simp] theorem complete_requests : (s.complete v q).requests = q := rfl

end

section
variable (s : State) (e : Err) (q : List Request)

@[simp] theorem raise_uid : (s.raise e q).uid = s.uid := rfl
@[simp] theorem raise_app : (s.raise e q).app = s.app := rfl
@[simp] theorem raise_khx : (s.raise e q).khx = s.khx := rfl
@[simp] theorem raise_opa : (s.raise e q).opa = s.opa := rfl
@[simp] theorem raise_opb : (s.raise e q).opb = s.opb := rfl
@[simp] theorem raise_key : (s.raise e q).key = s.key := rfl
@[simp] theorem raise_res : (s.raise e q).res = [] := rfl
@[simp] theorem raise_status : (s.raise e q).status = statusErr e.cause e.src := rfl
@[simp] theorem raise_cause : (s.raise e q).cause = e.cause.code := rfl
@[simp] theorem raise_deserr : (s.raise e q).deserr = deserrErr e := rfl
@[simp] theorem raise_scratch : (s.raise e q).scratch = Scratch.cleared := rfl
@[simp] theorem raise_now : (s.raise e q).now = s.now := rfl
@[simp] theorem raise_plat : (s.raise e q).plat = s.plat := rfl
@[simp] theorem raise_inbox : (s.raise e q).inbox = s.inbox := rfl
@[simp] theorem raise_reply : (s.raise e q).reply = s.reply := rfl
@[simp] theorem raise_requests : (s.raise e q).requests = q := rfl

end

section
variable (s : State)

@[simp] theorem applyReset_uid : (applyReset s).uid = none := rfl
@[simp] theorem applyReset_app : (applyReset s).app = none := rfl
@[simp] theorem applyReset_khx : (applyReset s).khx = none := rfl
@[simp] theorem applyReset_opa : (applyReset s).opa = [] := rfl
@[simp] theorem applyReset_opb : (applyReset s).opb = [] := rfl
@[simp] theorem applyReset_key : (applyReset s).key = [] := rfl
@[simp] theorem applyReset_res : (applyReset s).res = [] := rfl
@[simp] theorem applyReset_status : (applyReset s).status = 0x00 := rfl
@[simp] theorem applyReset_cause : (applyReset s).cause = 0x00 := rfl
@[simp] theorem applyReset_deserr : (applyReset s).deserr = 0x00 := rfl
@[simp] theorem applyReset_scratch : (applyReset s).scratch = Scratch.cleared := rfl
@[simp] theorem applyReset_now : (applyReset s).now = s.now := rfl
@[simp] theorem applyReset_plat : (applyReset s).plat = s.plat := rfl
@[simp] theorem applyReset_inbox : (applyReset s).inbox = s.inbox := rfl
@[simp] theorem applyReset_reply : (applyReset s).reply = s.reply := rfl
@[simp] theorem applyReset_requests : (applyReset s).requests = [] := rfl

end

section
variable (t : Time) (s : State)

@[simp] theorem driveClock_uid : (driveClock t s).uid = s.uid := rfl
@[simp] theorem driveClock_app : (driveClock t s).app = s.app := rfl
@[simp] theorem driveClock_khx : (driveClock t s).khx = s.khx := rfl
@[simp] theorem driveClock_opa : (driveClock t s).opa = s.opa := rfl
@[simp] theorem driveClock_opb : (driveClock t s).opb = s.opb := rfl
@[simp] theorem driveClock_key : (driveClock t s).key = s.key := rfl
@[simp] theorem driveClock_res : (driveClock t s).res = s.res := rfl
@[simp] theorem driveClock_status : (driveClock t s).status = s.status := rfl
@[simp] theorem driveClock_cause : (driveClock t s).cause = s.cause := rfl
@[simp] theorem driveClock_deserr : (driveClock t s).deserr = s.deserr := rfl
@[simp] theorem driveClock_scratch : (driveClock t s).scratch = s.scratch := rfl
@[simp] theorem driveClock_now : (driveClock t s).now = t := rfl
@[simp] theorem driveClock_plat : (driveClock t s).plat = s.plat := rfl
@[simp] theorem driveClock_inbox : (driveClock t s).inbox = s.inbox := rfl
@[simp] theorem driveClock_reply : (driveClock t s).reply = s.reply := rfl
@[simp] theorem driveClock_requests : (driveClock t s).requests = s.requests := rfl

end

section
variable (w : CmdWord) (s : State)

@[simp] theorem issueFirst_uid : (issueFirst w s).uid = s.uid := rfl
@[simp] theorem issueFirst_app : (issueFirst w s).app = s.app := rfl
@[simp] theorem issueFirst_khx : (issueFirst w s).khx = s.khx := rfl
@[simp] theorem issueFirst_opa : (issueFirst w s).opa = s.opa := rfl
@[simp] theorem issueFirst_opb : (issueFirst w s).opb = s.opb := rfl
@[simp] theorem issueFirst_key : (issueFirst w s).key = s.key := rfl
@[simp] theorem issueFirst_res : (issueFirst w s).res = s.res := rfl
@[simp] theorem issueFirst_status : (issueFirst w s).status = s.status := rfl
@[simp] theorem issueFirst_cause : (issueFirst w s).cause = s.cause := rfl
@[simp] theorem issueFirst_deserr : (issueFirst w s).deserr = s.deserr := rfl
@[simp] theorem issueFirst_scratch : (issueFirst w s).scratch = s.scratch := rfl
@[simp] theorem issueFirst_now : (issueFirst w s).now = s.now := rfl
@[simp] theorem issueFirst_plat : (issueFirst w s).plat = s.plat := rfl
@[simp] theorem issueFirst_inbox : (issueFirst w s).inbox = .cmd w :: s.inbox := rfl
@[simp] theorem issueFirst_reply : (issueFirst w s).reply = s.reply := rfl
@[simp] theorem issueFirst_requests : (issueFirst w s).requests = s.requests := rfl

end

section
variable (s : State)

@[simp] theorem begin_uid : (begin s).uid = s.uid := rfl
@[simp] theorem begin_app : (begin s).app = s.app := rfl
@[simp] theorem begin_khx : (begin s).khx = s.khx := rfl
@[simp] theorem begin_opa : (begin s).opa = s.opa := rfl
@[simp] theorem begin_opb : (begin s).opb = s.opb := rfl
@[simp] theorem begin_key : (begin s).key = s.key := rfl
@[simp] theorem begin_res : (begin s).res = s.res := rfl
@[simp] theorem begin_status : (begin s).status = s.status := rfl
@[simp] theorem begin_cause : (begin s).cause = s.cause := rfl
@[simp] theorem begin_deserr : (begin s).deserr = s.deserr := rfl
@[simp] theorem begin_scratch : (begin s).scratch = Scratch.cleared := rfl
@[simp] theorem begin_now : (begin s).now = s.now := rfl
@[simp] theorem begin_plat : (begin s).plat = s.plat := rfl
@[simp] theorem begin_inbox : (begin s).inbox = s.inbox := rfl
@[simp] theorem begin_reply : (begin s).reply = s.reply := rfl
@[simp] theorem begin_requests : (begin s).requests = [] := rfl

end

end Sys2Proof.Machine
end

