-- ==== Sys2Proof/Laws/Ops.lean ====
section
/-! SUPPORT. What the shared operations can do: runs of pseudocode, the two ends of a command, operand checks, the DES
port, and one event. -/

namespace Sys2Proof.Machine

open Sys2Proof.Config

section Runs

variable {α β : Type}

@[simp] theorem Run.ok_reqs (v : α) : (Run.ok v).reqs = [] := rfl
@[simp] theorem Run.ok_out (v : α) : (Run.ok v).out = .ok v := rfl
@[simp] theorem Run.err_reqs (e : Err) : (Run.err e : Run α).reqs = [] := rfl
@[simp] theorem Run.err_out (e : Err) : (Run.err e : Run α).out = .error e := rfl
@[simp] theorem Run.lift_ok (tag : Cause → Err) (v : α) : Run.lift tag (.ok v) = .ok v := rfl
@[simp] theorem Run.lift_error (tag : Cause → Err) (c : Cause) :
    (Run.lift tag (.error c) : Run α) = .err (tag c) := rfl
@[simp] theorem Run.lift_reqs (tag : Cause → Err) (x : Except Cause α) : (Run.lift tag x).reqs = [] := by
  cases x <;> rfl

@[simp] theorem Run.ok_bind (v : α) (f : α → Run β) : (Run.ok v).bind f = f v := by
  simp [Run.bind]

@[simp] theorem Run.err_bind (e : Err) (f : α → Run β) : (Run.err e : Run α).bind f = .err e := rfl

theorem Run.bind_of_ok {m : Run α} {v : α} (f : α → Run β) (h : m.out = .ok v) :
    m.bind f = { reqs := m.reqs ++ (f v).reqs, out := (f v).out } := by
  simp [Run.bind, h]

theorem Run.bind_of_error {m : Run α} {e : Err} (f : α → Run β) (h : m.out = .error e) :
    m.bind f = { reqs := m.reqs, out := .error e } := by
  simp [Run.bind, h]

/-- A sequence of two runs that gives a value: both gave one. -/
theorem Run.bind_out_ok {m : Run α} {f : α → Run β} {w : β} (h : (m.bind f).out = .ok w) :
    ∃ v, m.out = .ok v ∧ (f v).out = .ok w := by
  cases hm : m.out with
  | error e => simp [Run.bind_of_error f hm] at h
  | ok v => exact ⟨v, rfl, by simpa [Run.bind_of_ok f hm] using h⟩

/-- A sequence of two runs that raises: the first raised, or it gave a value and the second raised. -/
theorem Run.bind_out_error {m : Run α} {f : α → Run β} {e : Err} (h : (m.bind f).out = .error e) :
    m.out = .error e ∨ ∃ v, m.out = .ok v ∧ (f v).out = .error e := by
  cases hm : m.out with
  | error e' => left; simpa [Run.bind_of_error f hm] using h
  | ok v => right; exact ⟨v, rfl, by simpa [Run.bind_of_ok f hm] using h⟩

theorem Run.lift_out_ok {tag : Cause → Err} {x : Except Cause α} {v : α} (h : (Run.lift tag x).out = .ok v) :
    x = .ok v := by
  cases x <;> simp_all

theorem Run.lift_out_error {tag : Cause → Err} {x : Except Cause α} {e : Err} (h : (Run.lift tag x).out = .error e) :
    ∃ c, x = .error c ∧ e = tag c := by
  cases x with
  | ok v => simp at h
  | error c => exact ⟨c, rfl, by simpa using h.symm⟩

end Runs

section Ends

variable (s : State)

theorem finish_of_ok {m : Run Bytes} {v : Bytes} (h : m.out = .ok v) : s.finish m = s.complete v m.reqs := by
  simp [State.finish, h]

theorem finish_of_error {m : Run Bytes} {e : Err} (h : m.out = .error e) : s.finish m = s.raise e m.reqs := by
  simp [State.finish, h]

/-- Everything the end of a command can be (60_exceptions.md R190). -/
theorem finish_cases (m : Run Bytes) :
    (∃ v, m.out = .ok v ∧ s.finish m = s.complete v m.reqs) ∨
    (∃ e, m.out = .error e ∧ s.finish m = s.raise e m.reqs) := by
  cases h : m.out with
  | ok v => exact .inl ⟨v, rfl, finish_of_ok s h⟩
  | error e => exact .inr ⟨e, rfl, finish_of_error s h⟩

@[simp] theorem finish_uid (m : Run Bytes) : (s.finish m).uid = s.uid := by
  rcases finish_cases s m with ⟨_, _, h⟩ | ⟨_, _, h⟩ <;> simp [h]
@[simp] theorem finish_app (m : Run Bytes) : (s.finish m).app = s.app := by
  rcases finish_cases s m with ⟨_, _, h⟩ | ⟨_, _, h⟩ <;> simp [h]
@[simp] theorem finish_khx (m : Run Bytes) : (s.finish m).khx = s.khx := by
  rcases finish_cases s m with ⟨_, _, h⟩ | ⟨_, _, h⟩ <;> simp [h]
@[simp] theorem finish_opa (m : Run Bytes) : (s.finish m).opa = s.opa := by
  rcases finish_cases s m with ⟨_, _, h⟩ | ⟨_, _, h⟩ <;> simp [h]
@[simp] theorem finish_opb (m : Run Bytes) : (s.finish m).opb = s.opb := by
  rcases finish_cases s m with ⟨_, _, h⟩ | ⟨_, _, h⟩ <;> simp [h]
@[simp] theorem finish_key (m : Run Bytes) : (s.finish m).key = s.key := by
  rcases finish_cases s m with ⟨_, _, h⟩ | ⟨_, _, h⟩ <;> simp [h]
@[simp] theorem finish_now (m : Run Bytes) : (s.finish m).now = s.now := by
  rcases finish_cases s m with ⟨_, _, h⟩ | ⟨_, _, h⟩ <;> simp [h]
@[simp] theorem finish_plat (m : Run Bytes) : (s.finish m).plat = s.plat := by
  rcases finish_cases s m with ⟨_, _, h⟩ | ⟨_, _, h⟩ <;> simp [h]
@[simp] theorem finish_inbox (m : Run Bytes) : (s.finish m).inbox = s.inbox := by
  rcases finish_cases s m with ⟨_, _, h⟩ | ⟨_, _, h⟩ <;> simp [h]
@[simp] theorem finish_reply (m : Run Bytes) : (s.finish m).reply = s.reply := by
  rcases finish_cases s m with ⟨_, _, h⟩ | ⟨_, _, h⟩ <;> simp [h]
@[simp] theorem finish_scratch (m : Run Bytes) : (s.finish m).scratch = Scratch.cleared := by
  rcases finish_cases s m with ⟨_, _, h⟩ | ⟨_, _, h⟩ <;> simp [h]
@[simp] theorem finish_requests (m : Run Bytes) : (s.finish m).requests = m.reqs := by
  rcases finish_cases s m with ⟨_, _, h⟩ | ⟨_, _, h⟩ <;> simp [h]

theorem command_eq_next (m : Run Bytes) : s.command m = .next (s.finish m) := rfl

end Ends

/-- The pseudocode behind each operation: what `exec` runs to its end. -/
def runOf (i : Instr) (s : State) : Run Bytes :=
  match i with
  | .normid sel => normidRun s.plat (srcOfSel sel) (s.selected sel)
  | .deckey => deckeyRun s.plat s.khx
  | .encr => encrRun s.plat s.key s.opa
  | .xorv => .ok (xorv s.opa s.opb)
  | .bits => .ok ((bitsOf s.opa).map bitByte)
  | .tenc => tencRun s.now
  | .tmix => tmixRun s.plat s.now s.opa
  | .tpad => tpadRun s.plat s.uid
  | .perm round => Run.lift .plain (permute s.opa round.toNat)
  | .tcode => tcodeRun s.plat s.key s.uid s.opa
  | .xlatc start => xlatcRun start s.opa
  | .xlat => xlatRun s.opa
  | .gen => generate s.plat s.now s.uid s.app s.khx

/-- Everything an operation can do: run its pseudocode to its end. -/
theorem exec_eq (i : Instr) (s : State) : exec i s = .next (s.finish (runOf i s)) := by
  cases i <;> rfl

section Operands

/-- An operand of the required length passes; any other raises. -/
theorem needLength_cases (c : Cause) (n : Nat) (b : Bytes) :
    (b.length = n ∧ needLength c n b = .ok ()) ∨ (b.length ≠ n ∧ needLength c n b = .err (.plain c)) := by
  by_cases h : b.length = n
  · exact .inl ⟨h, by simp [needLength, h]⟩
  · exact .inr ⟨h, by simp [needLength, h]⟩

theorem needLength_of_eq {c : Cause} {n : Nat} {b : Bytes} (h : b.length = n) : needLength c n b = .ok () := by
  simp [needLength, h]

theorem needLength_of_ne {c : Cause} {n : Nat} {b : Bytes} (h : b.length ≠ n) :
    needLength c n b = .err (.plain c) := by
  simp [needLength, h]

@[simp] theorem needUid_none : needUid none = .err (.about .uid .operandAbsent) := rfl
@[simp] theorem needUid_some (t : Text) : needUid (some t) = .ok t := rfl

end Operands

section DesPort

/-- Everything the binding of a key can do (42_block_cipher.md R113, R114). -/
theorem bindKey_cases (d : DesUnit) (k : Bytes) :
    (desKs d k = .ok ∧ bindKey d k = { reqs := [.desKs k], out := .ok () }) ∨
    (∃ code, desKs d k = .fail code ∧
      bindKey d k = { reqs := [.desKs k], out := .error { cause := .keyRejected, src := .none, code := code } }) := by
  cases h : desKs d k with
  | ok => exact .inl ⟨rfl, by simp [bindKey, h]⟩
  | fail code => exact .inr ⟨code, rfl, by simp [bindKey, h]⟩

/-- Everything the encryption of a block can do (42_block_cipher.md R113, R114): a value is 8 bytes long. -/
theorem encrypt_cases (d : DesUnit) (k b : Bytes) :
    (∃ c : Vector Byte 8, desE d k b = .ok c ∧ encrypt d k b = { reqs := [.desE k b], out := .ok c.toList }) ∨
    (∃ code, desE d k b = .fail code ∧
      encrypt d k b = { reqs := [.desE k b], out := .error { cause := .encryptFailed, src := .none, code := code } }) := by
  cases h : desE d k b with
  | ok c => exact .inl ⟨c, rfl, by simp [encrypt, h]⟩
  | fail code => exact .inr ⟨code, rfl, by simp [encrypt, h]⟩

@[simp] theorem bindKey_reqs (d : DesUnit) (k : Bytes) : (bindKey d k).reqs = [.desKs k] := by
  rcases bindKey_cases d k with ⟨_, h⟩ | ⟨_, _, h⟩ <;> simp [h]

@[simp] theorem encrypt_reqs (d : DesUnit) (k b : Bytes) : (encrypt d k b).reqs = [.desE k b] := by
  rcases encrypt_cases d k b with ⟨_, _, h⟩ | ⟨_, _, h⟩ <;> simp [h]

@[simp] theorem sample_reqs (now : Time) : (sample now).reqs = [.sample] := rfl
@[simp] theorem sample_out (now : Time) : (sample now).out = .ok now.toNat := rfl

end DesPort

section Events

/-- A host write that takes effect changes exactly one operand register, within its capacity (20_memory.md R57). -/
theorem writeReg_cases {s t : State} {r : Reg} {v : RegValue} (h : s.writeReg r v = some t) :
    (∃ x, r = .uid ∧ v = .text x ∧ textFits x ∧ t = { s with uid := x }) ∨
    (∃ x, r = .app ∧ v = .text x ∧ textFits x ∧ t = { s with app := x }) ∨
    (∃ x, r = .khx ∧ v = .text x ∧ textFits x ∧ t = { s with khx := x }) ∨
    (∃ b, r = .opa ∧ v = .bytes b ∧ bytesFit b ∧ t = { s with opa := b }) ∨
    (∃ b, r = .opb ∧ v = .bytes b ∧ bytesFit b ∧ t = { s with opb := b }) ∨
    (∃ b, r = .key ∧ v = .bytes b ∧ bytesFit b ∧ t = { s with key := b }) := by
  have fits {c : Bool} {u : State} (h : (if c then some u else none) = some t) : c = true ∧ t = u := by
    cases c with
    | false => simp at h
    | true => exact ⟨rfl, by simpa [eq_comm] using h⟩
  cases r <;> cases v <;> simp only [State.writeReg, reduceCtorEq] at h
  · exact .inl ⟨_, rfl, rfl, fits h⟩
  · exact .inr (.inl ⟨_, rfl, rfl, fits h⟩)
  · exact .inr (.inr (.inl ⟨_, rfl, rfl, fits h⟩))
  · exact .inr (.inr (.inr (.inl ⟨_, rfl, rfl, fits h⟩)))
  · exact .inr (.inr (.inr (.inr (.inl ⟨_, rfl, rfl, fits h⟩))))
  · exact .inr (.inr (.inr (.inr (.inr ⟨_, rfl, rfl, fits h⟩))))

/-- A host write that answers a next state wrote a register. -/
theorem hostWrite_next {n : Nat} {v : RegValue} {s t : State} (h : hostWrite n v s = .next t) :
    ∃ r, Reg.ofNumber n = some r ∧ s.writeReg r v = some t := by
  simp only [hostWrite] at h
  split at h
  · simp at h
  · next r hr =>
    split at h
    · simp at h
    · next u hu => exact ⟨r, hr, by simpa [hu] using h⟩

/-- A host read that answers a next state changes nothing but the reply (20_memory.md R58). -/
theorem hostRead_next {n : Nat} {s t : State} (h : hostRead n s = .next t) :
    ∃ r, Reg.ofNumber n = some r ∧ t = { s with reply := some (s.readReg r) } := by
  simp only [hostRead] at h
  split at h
  · simp at h
  · next r hr => exact ⟨r, hr, by simpa [eq_comm] using h⟩

/-- A command word always leads to the end of a command: an operation's, or `Illegal` (30_encoding.md R71). -/
theorem runWord_cases (w : CmdWord) (s : State) :
    (∃ i, decode w = .ok i ∧ runWord w s = .next (s.finish (runOf i s))) ∨
    (∃ e, decode w = .error e ∧ runWord w s = .next (s.raise (.plain (causeOfReject e)) [])) := by
  cases h : decode w with
  | ok i => exact .inl ⟨i, rfl, by simp [runWord, h, exec_eq]⟩
  | error e => exact .inr ⟨e, rfl, by simp [runWord, h]⟩

theorem step_nil {s : State} (h : s.inbox = []) : step s = .next s := by
  simp [step, takeEvent, h]

theorem step_cons {s : State} {ev : Event} {rest : List Event} (h : s.inbox = ev :: rest) :
    step s = transact ev { s with inbox := rest } := by
  simp [step, takeEvent, h]

/-- Everything a step that answers a next state can be: idle, or one event taken from the inbox and carried out. -/
theorem step_cases {s t : State} (h : step s = .next t) :
    (s.inbox = [] ∧ t = s) ∨
    (∃ ev rest, s.inbox = ev :: rest ∧ transact ev { s with inbox := rest } = .next t) := by
  cases hs : s.inbox with
  | nil => left; exact ⟨rfl, by simpa [step_nil hs, eq_comm] using h⟩
  | cons ev rest => right; exact ⟨ev, rest, rfl, by simpa [step_cons hs] using h⟩

end Events

end Sys2Proof.Machine
end

