-- ==== Sys2Proof/Laws/PerInstr.lean ====
section
/-! SUPPORT. Facts about each operation as syntax, one lemma for each constructor. -/

namespace Sys2Proof.Laws.EncodedFields

/-- The word of an operation holds its operation code, 0x01 to 0x0D, in `op` and its immediate in `arg`
(30_encoding.md R70, R72, R73). -/
def Statement (i : Instr) : Prop :=
  opField (encode i) = opOf i ∧ argField (encode i) = argOf i ∧ 1 ≤ (opOf i).toNat ∧ (opOf i).toNat ≤ 13

/-- The two fields of an encoded operation are what the encoder put there. -/
theorem of_range (i : Instr) (h : 1 ≤ (opOf i).toNat ∧ (opOf i).toNat ≤ 13) : Statement i :=
  ⟨opField_wordOf _ _, argField_wordOf _ _, h⟩

theorem normid (sel : IdSel) : Statement (.normid sel) := of_range _ ⟨by simp [opOf], by simp [opOf]⟩
theorem deckey : Statement .deckey := of_range _ ⟨by decide, by decide⟩
theorem encr : Statement .encr := of_range _ ⟨by decide, by decide⟩
theorem xorv : Statement .xorv := of_range _ ⟨by decide, by decide⟩
theorem bits : Statement .bits := of_range _ ⟨by decide, by decide⟩
theorem tenc : Statement .tenc := of_range _ ⟨by decide, by decide⟩
theorem tmix : Statement .tmix := of_range _ ⟨by decide, by decide⟩
theorem tpad : Statement .tpad := of_range _ ⟨by decide, by decide⟩
theorem perm (round : BitVec 8) : Statement (.perm round) := of_range _ ⟨by simp [opOf], by simp [opOf]⟩
theorem tcode : Statement .tcode := of_range _ ⟨by decide, by decide⟩
theorem xlatc (start : BitVec 8) : Statement (.xlatc start) := of_range _ ⟨by simp [opOf], by simp [opOf]⟩
theorem xlat : Statement .xlat := of_range _ ⟨by decide, by decide⟩
theorem gen : Statement .gen := of_range _ ⟨by decide, by decide⟩

end Sys2Proof.Laws.EncodedFields
end

