-- ==== Sys2Proof/Laws/Units.lean ====
section
/-! SUPPORT. What the functions of the units can do, said once: lengths, the characters of encoded texts, single bytes
and bits of their results. -/

namespace Sys2Proof.Machine

open Sys2Proof.Config

section Sequences

variable {α : Type}

@[simp] theorem left_length (b : List α) (n : Nat) : (left b n).length = min n b.length := by simp [left]
@[simp] theorem right_length (b : List α) (n : Nat) : (right b n).length = min n b.length := by
  simp [right]; omega
@[simp] theorem rep_length (v : α) (n : Nat) : (rep v n).length = n := by simp [rep]

end Sequences

section Bits

@[simp] theorem byteBits_length (x : Byte) : (byteBits x).length = 8 := rfl

@[simp] theorem bitsOf_length (b : Bytes) : (bitsOf b).length = 8 * b.length := by
  induction b with
  | nil => rfl
  | cons x t ih => simp [bitsOf, ih]; omega

/-- The bit at sequence index `j` of a byte is its bit `7 - j` (43_bitops.md R122). -/
theorem byteBits_getD (x : Byte) (j : Nat) (h : j < 8) : (byteBits x).getD j false = x.getLsbD (7 - j) := by
  interval_cases j <;> rfl

/-- The bit at sequence index `8*i + j` is bit `7 - j` of byte `i` (43_bitops.md R122). -/
theorem bitsOf_getD (b : Bytes) (i j : Nat) (hj : j < 8) :
    (bitsOf b).getD (8 * i + j) false = (b.getD i 0).getLsbD (7 - j) := by
  induction b generalizing i with
  | nil => simp [bitsOf]
  | cons x t ih =>
    cases i with
    | zero =>
      rw [bitsOf, List.getD_append _ _ _ _ (by simp; omega)]
      simpa using byteBits_getD x j hj
    | succ i =>
      rw [bitsOf, List.getD_append_right _ _ _ _ (by simp; omega)]
      simpa [show 8 * (i + 1) + j - 8 = 8 * i + j by omega] using ih i

theorem pack_length : ∀ v : Bits, (pack v).length = v.length / 8
  | _ :: _ :: _ :: _ :: _ :: _ :: _ :: _ :: t => by simp [pack, pack_length t]; omega
  | [] => by simp [pack]
  | [_] => by simp [pack]
  | [_, _] => by simp [pack]
  | [_, _, _] => by simp [pack]
  | [_, _, _, _] => by simp [pack]
  | [_, _, _, _, _] => by simp [pack]
  | [_, _, _, _, _, _] => by simp [pack]
  | [_, _, _, _, _, _, _] => by simp [pack]

@[simp] theorem select_length (table : List Nat) (v : Bits) : (select table v).length = table.length := by
  simp [select]

end Bits

section Xor

@[simp] theorem xorv_length (a b : Bytes) : (xorv a b).length = max a.length b.length := by
  unfold xorv
  split <;> simp <;> omega

/-- A byte of `xorv` (43_bitops.md R120): XOR where both have one, else the longer operand's. -/
theorem xorv_getElem? (a b : Bytes) (i : Nat) :
    (xorv a b)[i]? = match a[i]?, b[i]? with
      | some x, some y => some (x ^^^ y)
      | some x, none => some x
      | none, some y => some y
      | none, none => none := by
  unfold xorv
  split <;> rename_i h
  · by_cases hi : i < b.length
    · rw [List.getElem?_append_left (by simp; omega)]
      simp [List.getElem?_zipWith, List.getElem?_eq_getElem hi, List.getElem?_eq_getElem (show i < a.length by omega)]
    · rw [List.getElem?_append_right (by simp; omega), List.getElem?_eq_none (l := b) (by omega)]
      simp only [List.length_zipWith, List.getElem?_drop]
      rw [show b.length + (i - min a.length b.length) = i by omega]
      cases a[i]? <;> rfl
  · by_cases hi : i < a.length
    · rw [List.getElem?_append_left (by simp; omega)]
      simp [List.getElem?_zipWith, List.getElem?_eq_getElem hi, List.getElem?_eq_getElem (show i < b.length by omega)]
    · rw [List.getElem?_append_right (by simp; omega), List.getElem?_eq_none (l := a) (by omega)]
      simp only [List.length_zipWith, List.getElem?_drop]
      rw [show a.length + (i - min a.length b.length) = i by omega]
      cases b[i]? <;> rfl

/-- The copied tail is what XOR with zeros would give, so a byte read as 0 past the end needs no case
(43_bitops.md R120). -/
theorem xorv_getD (a b : Bytes) (i : Nat) : (xorv a b).getD i 0 = a.getD i 0 ^^^ b.getD i 0 := by
  simp only [List.getD_eq_getElem?_getD, xorv_getElem?]
  cases a[i]? <;> cases b[i]? <;> simp

end Xor

section Text

variable (ext : List (CharCode × Byte))

/-- A text encodes exactly when each of its characters does (41_field_encoder.md R92). -/
theorem cpenc_eq_ok (t : Text) (f : Bytes) : cpenc ext t = .ok f ↔ t.map (cpByte ext) = f.map some := by
  induction t generalizing f with
  | nil => cases f <;> simp [cpenc]
  | cons c t ih =>
    cases hc : cpByte ext c with
    | none => cases f <;> simp [cpenc, hc]
    | some b =>
      cases ht : cpenc ext t with
      | error e =>
        cases f with
        | nil => simp [cpenc, hc, ht]
        | cons y f =>
          have := ih f
          simp [cpenc, hc, ht] at this ⊢
          exact fun _ h => this h
      | ok bs =>
        cases f with
        | nil => simp [cpenc, hc, ht]
        | cons y f =>
          have := ih f
          simp [cpenc, hc, ht] at this ⊢
          exact fun _ => this

/-- A text fails to encode exactly when one of its characters does, always with the same cause
(41_field_encoder.md R92). -/
theorem cpenc_eq_error (t : Text) (e : Cause) :
    cpenc ext t = .error e ↔ e = .unmappableChar ∧ ∃ c ∈ t, cpByte ext c = none := by
  induction t with
  | nil => simp [cpenc]
  | cons c t ih =>
    cases hc : cpByte ext c with
    | none => simp [cpenc, hc, eq_comm]
    | some b =>
      cases ht : cpenc ext t with
      | error e' =>
        simp only [ht] at ih
        simpa [cpenc, hc, ht] using ih
      | ok bs =>
        simp only [ht, reduceCtorEq, false_iff, not_and] at ih
        simp [cpenc, hc, ht]
        exact fun h x hx => by simpa using fun h' => ih h ⟨x, hx, h'⟩

theorem cpenc_length {t : Text} {f : Bytes} (h : cpenc ext t = .ok f) : f.length = t.length := by
  simpa using (congrArg List.length ((cpenc_eq_ok ext t f).1 h)).symm

theorem stripLeading_ws_append {w : Text} (hw : ∀ c ∈ w, isws c = true) (u : Text) :
    stripLeading (w ++ u) = stripLeading u := by
  induction w with
  | nil => rfl
  | cons c w ih =>
    have hc : isws c = true := hw c (by simp)
    simpa [stripLeading, hc] using ih fun x hx => hw x (by simp [hx])

theorem stripLeading_cons {c : CharCode} (hc : isws c = false) (u : Text) : stripLeading (c :: u) = c :: u := by
  simp [stripLeading, hc]

/-- A text is its leading whitespace followed by `stripLeading` of it (41_field_encoder.md R93). -/
theorem exists_stripLeading (t : Text) :
    ∃ w, t = w ++ stripLeading t ∧ (∀ c ∈ w, isws c = true) ∧
      ∀ c u, stripLeading t = c :: u → isws c = false := by
  induction t with
  | nil => exact ⟨[], rfl, by simp, by simp [stripLeading]⟩
  | cons c t ih =>
    cases hc : isws c with
    | false =>
      refine ⟨[], by simp [stripLeading_cons hc], by simp, fun d u h => ?_⟩
      rw [stripLeading_cons hc] at h
      simp_all
    | true =>
      obtain ⟨w, h1, h2, h3⟩ := ih
      have hs : stripLeading (c :: t) = stripLeading t := by simp [stripLeading, hc]
      refine ⟨c :: w, by rw [hs, List.cons_append, ← h1], by simpa [hc] using h2, by simpa [hs] using h3⟩

/-- Trimming removes characters only at the ends (41_field_encoder.md R93). -/
theorem exists_trim (t : Text) : ∃ w, stripLeading t = trim t ++ w := by
  obtain ⟨w, h, _⟩ := exists_stripLeading (stripLeading t).reverse
  refine ⟨w.reverse, ?_⟩
  have := congrArg List.reverse h
  simpa [trim, stripLeading] using this

/-- Everything `normalizeIdentifier` can do with a text (41_field_encoder.md R94). -/
theorem normalizeIdentifier_some (t : Text) :
    (stripLeading t = [] ∧ normalizeIdentifier ext (some t) = .error .idEmpty) ∨
    (stripLeading t ≠ [] ∧ (∃ c ∈ stripLeading t, cpByte ext c = none) ∧
      normalizeIdentifier ext (some t) = .error .unmappableChar) ∨
    (∃ f, stripLeading t ≠ [] ∧ cpenc ext (stripLeading t) = .ok f ∧ 8 < f.length ∧
      normalizeIdentifier ext (some t) = .error .idTooLong) ∨
    (∃ f, stripLeading t ≠ [] ∧ cpenc ext (stripLeading t) = .ok f ∧ f.length ≤ 8 ∧
      normalizeIdentifier ext (some t) = .ok (f ++ rep 0x40 (8 - f.length))) := by
  by_cases h0 : stripLeading t = []
  · exact .inl ⟨h0, by simp [normalizeIdentifier, h0]⟩
  · right
    cases hc : cpenc ext (stripLeading t) with
    | error e =>
      obtain ⟨rfl, h⟩ := (cpenc_eq_error ext _ _).1 hc
      exact .inl ⟨h0, h, by simp [normalizeIdentifier, h0, hc]⟩
    | ok f =>
      by_cases hf : 8 < f.length
      · exact .inr (.inl ⟨f, h0, rfl, hf, by simp [normalizeIdentifier, h0, hc, fieldLen, hf]⟩)
      · exact .inr (.inr ⟨f, h0, rfl, by omega, by simp [normalizeIdentifier, h0, hc, fieldLen, fieldPad, hf]⟩)

theorem normalizeIdentifier_length {raw : Option Text} {f : Bytes} (h : normalizeIdentifier ext raw = .ok f) :
    f.length = 8 := by
  cases raw with
  | none => simp [normalizeIdentifier] at h
  | some t =>
    rcases normalizeIdentifier_some ext t with ⟨_, h'⟩ | ⟨_, _, h'⟩ | ⟨_, _, _, _, h'⟩ | ⟨g, _, _, hg, h'⟩ <;>
      rw [h'] at h <;> simp at h
    subst h
    simp; omega

/-- The padding is 12 bytes (45_time_coder.md R154). -/
theorem tcPad_length {t : Text} {p : Bytes} (h : tcPad ext t = .ok p) : p.length = 12 := by
  simp only [tcPad] at h
  split at h
  · simp at h
  · split at h
    · simp at h
    · next hl =>
      simp only [padLen] at h hl
      cases h
      simp; omega

/-- An identifier that passes `GEN`'s validation has a padding (44_orchestrator.md R135). -/
theorem tcPad_of_normalizeIdentifier {t : Text} {f : Bytes} (h : normalizeIdentifier ext (some t) = .ok f) :
    ∃ p, tcPad ext t = .ok p := by
  rcases normalizeIdentifier_some ext t with ⟨_, h'⟩ | ⟨_, _, h'⟩ | ⟨_, _, _, _, h'⟩ | ⟨g, _, hc, hg, h'⟩ <;>
    rw [h'] at h <;> simp at h
  obtain ⟨w, hw⟩ := exists_trim t
  cases ht : cpenc ext (trim t) with
  | error e =>
    obtain ⟨_, c, hc', hn⟩ := (cpenc_eq_error ext _ _).1 ht
    have : cpenc ext (stripLeading t) = .error .unmappableChar :=
      (cpenc_eq_error ext _ _).2 ⟨rfl, c, by rw [hw]; simp [hc'], hn⟩
    simp [this] at hc
  | ok u =>
    have h1 := cpenc_length ext ht
    have h2 := cpenc_length ext hc
    have h3 := congrArg List.length hw
    simp at h3
    refine ⟨u ++ rep padFill (padLen - u.length), ?_⟩
    have : ¬ padLen < u.length := by simp [padLen]; omega
    simp [tcPad, ht, this]

end Text

section Key

/-- The bytes of a hex text of even length depend on the digit values alone (41_field_encoder.md R97). -/
theorem hexBytes_congr : ∀ a b : Text, a.map hexval = b.map hexval → hexBytes a = hexBytes b
  | [], [], _ => rfl
  | [], _ :: _, h => by simp at h
  | [_], [], h => by simp at h
  | [_], [_], _ => rfl
  | [_], _ :: _ :: _, h => by simp at h
  | _ :: _ :: _, [], h => by simp at h
  | _ :: _ :: _, [_], h => by simp at h
  | _ :: _ :: t, _ :: _ :: u, h => by
    simp only [List.map_cons, List.cons.injEq] at h
    simp only [hexBytes, h.1, h.2.1, hexBytes_congr t u h.2.2]

theorem hexval_lt {c : CharCode} {n : Nat} (h : hexval c = some n) : n < 16 := by
  simp only [hexval, BitVec.le_def] at h
  split at h
  · next hc => simp at h hc; omega
  · split at h
    · next hc => simp at h hc; omega
    · split at h
      · next hc => simp at h hc; omega
      · simp at h

theorem hexBytes_length : ∀ (t : Text) (k : Bytes), hexBytes t = some k → 2 * k.length = t.length
  | [], k, h => by simp [hexBytes] at h; simp [h]
  | [_], _, h => by simp [hexBytes] at h
  | _ :: _ :: t, k, h => by
    simp only [hexBytes] at h
    split at h
    · next _ _ bs _ _ hbs =>
      cases h
      have := hexBytes_length t bs hbs
      simp; omega
    · simp at h

/-- A key decodes to 8 bytes (41_field_encoder.md R97, R99). -/
theorem decodeKeyBytes_length {raw : Option Text} {k : Bytes} (h : decodeKeyBytes raw = .ok k) : k.length = 8 := by
  simp only [decodeKeyBytes] at h
  split at h
  · simp at h
  · split at h
    · next hl =>
      split at h
      · simp at h
      · next hk =>
        cases h
        have := hexBytes_length _ _ hk
        simp only [keyHexLen] at hl
        omega
    · simp at h

end Key

section Coder

/-- Everything `permute` can do (45_time_coder.md R152). -/
theorem permute_cases (x : Bytes) (i : Nat) :
    (x.length ≠ 2 ∧ permute x i = .error .permInputLen) ∨
    (x.length = 2 ∧ permRow i = none ∧ permute x i = .error .permRound) ∨
    (∃ row, x.length = 2 ∧ permRow i = some row ∧ permute x i = .ok (pack (select row (bitsOf x)))) := by
  by_cases hx : x.length = 2
  · right
    cases hr : permRow i with
    | none => exact .inl ⟨hx, rfl, by simp [permute, hx, hr, halfLen]⟩
    | some row => exact .inr ⟨row, hx, rfl, by simp [permute, hx, hr, halfLen]⟩
  · exact .inl ⟨hx, by simp [permute, hx, halfLen]⟩

/-- There is a table exactly for the rounds 1 to 6 (45_time_coder.md R151), each of sixteen entries. -/
theorem permRow_length {i : Nat} {row : List Nat} (h : permRow i = some row) : row.length = 16 := by
  simp only [permRow] at h
  split at h <;> simp at h <;> subst h <;> rfl

theorem permRow_isSome_iff (i : Nat) : (∃ row, permRow i = some row) ↔ 1 ≤ i ∧ i ≤ 6 := by
  constructor
  · rintro ⟨row, h⟩
    simp only [permRow] at h
    split at h <;> simp_all
  · rintro ⟨h1, h2⟩
    interval_cases i <;> exact ⟨_, rfl⟩

theorem permute_length {x y : Bytes} {i : Nat} (h : permute x i = .ok y) : y.length = 2 := by
  rcases permute_cases x i with ⟨_, h'⟩ | ⟨_, _, h'⟩ | ⟨row, _, hr, h'⟩ <;> rw [h'] at h <;> simp at h
  subst h
  simp [pack_length, permRow_length hr]

/-- Inside the time coder the permutation cannot raise (45_time_coder.md R156). -/
theorem permute_round {x : Bytes} {i : Nat} (hx : x.length = 2) (h1 : 1 ≤ i) (h2 : i ≤ 6) :
    ∃ y, permute x i = .ok y := by
  obtain ⟨row, hr⟩ := (permRow_isSome_iff i).2 ⟨h1, h2⟩
  rcases permute_cases x i with ⟨h, _⟩ | ⟨_, h, _⟩ | ⟨row, _, _, h⟩
  · exact absurd hx h
  · simp [hr] at h
  · exact ⟨_, h⟩

end Coder

section Time

theorem timeLenFrom_cases (fuel n t : Nat) :
    n ≤ timeLenFrom fuel n t ∧ timeLenFrom fuel n t ≤ n + fuel ∧
    (∀ m, n ≤ m → m < timeLenFrom fuel n t → 2 ^ (8 * m - 1) ≤ t) ∧
    (timeLenFrom fuel n t < n + fuel → t < 2 ^ (8 * timeLenFrom fuel n t - 1)) := by
  induction fuel generalizing n with
  | zero => exact ⟨by simp [timeLenFrom], by simp [timeLenFrom], fun m h1 h2 => by simp [timeLenFrom] at h2; omega,
      fun h => by simp [timeLenFrom] at h⟩
  | succ fuel ih =>
    by_cases h : t < 2 ^ (8 * n - 1)
    · simp only [timeLenFrom, h, if_true]
      exact ⟨le_rfl, by omega, fun m h1 h2 => by omega, fun _ => trivial⟩
    · simp only [timeLenFrom, h, if_false]
      obtain ⟨h1, h2, h3, h4⟩ := ih (n + 1)
      refine ⟨by omega, by omega, fun m hm1 hm2 => ?_, fun hl => h4 (by omega)⟩
      rcases Nat.lt_or_ge n m with hlt | hge
      · exact h3 m hlt hm2
      · obtain rfl : m = n := by omega
        omega

/-- The length of the time encoding is the least `n ≥ 1` with `T < 2^(8*n - 1)` (44_orchestrator.md R130). -/
theorem timeLen_spec {t : Nat} (ht : t < 2 ^ 63) :
    1 ≤ timeLen t ∧ timeLen t ≤ 8 ∧ t < 2 ^ (8 * timeLen t - 1) ∧
    ∀ m, 1 ≤ m → m < timeLen t → 2 ^ (8 * m - 1) ≤ t := by
  obtain ⟨h1, h2, h3, h4⟩ := timeLenFrom_cases 7 1 t
  refine ⟨h1, h2, ?_, h3⟩
  rcases Nat.lt_or_ge (timeLenFrom 7 1 t) (1 + 7) with h | h
  · exact h4 h
  · have : timeLenFrom 7 1 t = 8 := by omega
    simpa [timeLen, this] using ht

@[simp] theorem timeBytes_length (t : Nat) : (timeBytes t).length = timeLen t := by simp [timeBytes]

end Time

section Token

@[simp] theorem translateAll_length (x : Bytes) : (translateAll x).length = 8 := rfl

end Token

end Sys2Proof.Machine
end

