-- ==== Sys2Proof/Laws/Runs.lean ====
section
/-! SUPPORT. What the runs of the units can do, said once: with which errors they can end, and what their values are. -/

namespace Sys2Proof.Machine

open Sys2Proof.Config

section Status

/-- The fields of `STATUS` after an error (60_exceptions.md R192, R193). -/
theorem statusErr_fields (c : Cause) (src : Src) :
    (kindField (statusErr c src)).toNat = c.kind.code.toNat ∧ validField (statusErr c src) = false ∧
    srcField (statusErr c src) = (src.code).setWidth 2 ∧ reservedField (statusErr c src) = 0 := by
  cases c <;> cases src <;> decide

theorem statusErr_ne_done (c : Cause) (src : Src) : statusErr c src ≠ statusDone := by
  cases c <;> cases src <;> decide

/-- The kind in `STATUS` is `CryptoError` exactly for the two causes of that kind (60_exceptions.md R192). -/
theorem kindField_statusErr_eq_two (c : Cause) (src : Src) :
    kindField (statusErr c src) = 2 ↔ c.kind = .cryptoError := by
  cases c <;> cases src <;> decide

theorem Cause.code_injective {c d : Cause} (h : c.code = d.code) : c = d := by
  cases c <;> cases d <;> first | rfl | exact absurd h (by decide)

end Status

section Parts

theorem needLength_out_ok {c : Cause} {n : Nat} {b : Bytes} {u : Unit} (h : (needLength c n b).out = .ok u) :
    b.length = n := by
  rcases needLength_cases c n b with ⟨hl, _⟩ | ⟨_, h'⟩
  · exact hl
  · rw [h'] at h; cases h

theorem needLength_out_error {c : Cause} {n : Nat} {b : Bytes} {e : Err} (h : (needLength c n b).out = .error e) :
    e = .plain c ∧ b.length ≠ n := by
  rcases needLength_cases c n b with ⟨_, h'⟩ | ⟨hl, h'⟩ <;> rw [h'] at h <;> cases h
  exact ⟨rfl, hl⟩

theorem bindKey_out_ok {d : DesUnit} {k : Bytes} {u : Unit} (h : (bindKey d k).out = .ok u) : desKs d k = .ok := by
  rcases bindKey_cases d k with ⟨hk, _⟩ | ⟨_, _, h'⟩
  · exact hk
  · rw [h'] at h; cases h

theorem bindKey_out_error {d : DesUnit} {k : Bytes} {e : Err} (h : (bindKey d k).out = .error e) :
    e.cause = .keyRejected ∧ e.src = .none ∧ desKs d k = .fail e.code := by
  rcases bindKey_cases d k with ⟨_, h'⟩ | ⟨_, hk, h'⟩ <;> rw [h'] at h <;> cases h
  exact ⟨rfl, rfl, hk⟩

theorem encrypt_out_ok {d : DesUnit} {k b c : Bytes} (h : (encrypt d k b).out = .ok c) : c.length = 8 := by
  rcases encrypt_cases d k b with ⟨_, _, h'⟩ | ⟨_, _, h'⟩ <;> rw [h'] at h <;> cases h
  simp

theorem encrypt_out_error {d : DesUnit} {k b : Bytes} {e : Err} (h : (encrypt d k b).out = .error e) :
    e.cause = .encryptFailed ∧ e.src = .none ∧ desE d k b = .fail e.code := by
  rcases encrypt_cases d k b with ⟨_, _, h'⟩ | ⟨_, hb, h'⟩ <;> rw [h'] at h <;> cases h
  exact ⟨rfl, rfl, hb⟩

end Parts

section Causes

variable {ext : List (CharCode × Byte)}

/-- With which causes an identifier can fail (41_field_encoder.md R94). -/
theorem normalizeIdentifier_error {raw : Option Text} {c : Cause} (h : normalizeIdentifier ext raw = .error c) :
    c ∈ [Cause.idAbsent, .idEmpty, .idTooLong, .unmappableChar] := by
  cases raw with
  | none => cases h; simp
  | some t =>
    rcases normalizeIdentifier_some ext t with ⟨_, h'⟩ | ⟨_, _, h'⟩ | ⟨_, _, _, _, h'⟩ | ⟨_, _, _, _, h'⟩ <;>
      rw [h'] at h <;> cases h <;> simp

/-- With which causes a key text can fail (41_field_encoder.md R97). -/
theorem decodeKeyBytes_error {raw : Option Text} {c : Cause} (h : decodeKeyBytes raw = .error c) :
    c ∈ [Cause.keyAbsent, .keyLength, .keyNotHex] := by
  simp only [decodeKeyBytes] at h
  (repeat' split at h) <;> cases h <;> simp

/-- With which causes the padding can fail (45_time_coder.md R154). -/
theorem tcPad_error {t : Text} {c : Cause} (h : tcPad ext t = .error c) : c = .unmappableChar ∨ c = .padUidLen := by
  simp only [tcPad] at h
  split at h
  · next he => cases h; exact .inl ((cpenc_eq_error ext _ _).1 he).1
  · split at h <;> cases h
    exact .inr rfl

end Causes

section Coder

variable {d : DesUnit} {k padb : Bytes}

/-- A round that gives a value: the new `L` is the old `R`, the new `R` has two bytes (45_time_coder.md R156). -/
theorem tcRound_out_ok {i : Nat} {lr lr' : Bytes × Bytes} (h : (tcRound d k padb i lr).out = .ok lr') :
    lr'.1 = lr.2 ∧ lr'.2.length = 2 ∧
    ∃ c, (encrypt d k (lr.2 ++ padOf padb i)).out = .ok c ∧ permute (xorv (left c halfLen) lr.1) i = .ok lr'.2 := by
  obtain ⟨c, hc, h⟩ := Run.bind_out_ok h
  obtain ⟨r, hr, h⟩ := Run.bind_out_ok h
  cases h
  have hr := Run.lift_out_ok hr
  exact ⟨rfl, permute_length hr, c, hc, hr⟩

/-- A round on two-byte halves fails only as its encryption fails (45_time_coder.md R156). -/
theorem tcRound_out_error {i : Nat} {lr : Bytes × Bytes} {e : Err} (h1 : 1 ≤ i) (h6 : i ≤ 6) (hl : lr.1.length = 2)
    (h : (tcRound d k padb i lr).out = .error e) : (encrypt d k (lr.2 ++ padOf padb i)).out = .error e := by
  rcases Run.bind_out_error h with h | ⟨c, hc, h⟩
  · exact h
  · have hl8 := encrypt_out_ok hc
    obtain ⟨y, hy⟩ := permute_round (x := xorv (left c halfLen) lr.1) (i := i) (by simp [halfLen, hl, hl8]) h1 h6
    rw [hy] at h
    simp at h

/-- Rounds keep the halves at two bytes (45_time_coder.md R156). -/
theorem tcRounds_out_ok : ∀ (is : List Nat) {lr z : Bytes × Bytes}, lr.1.length = 2 → lr.2.length = 2 →
    (tcRounds d k padb is lr).out = .ok z → z.1.length = 2 ∧ z.2.length = 2
  | [], _, _, h1, h2, h => by cases h; exact ⟨h1, h2⟩
  | _ :: is, _, _, _, h2, h => by
    obtain ⟨u, hu, h⟩ := Run.bind_out_ok h
    obtain ⟨e1, e2, _⟩ := tcRound_out_ok hu
    exact tcRounds_out_ok is (by rw [e1]; exact h2) e2 h

/-- Rounds 1 to 6 on two-byte halves fail only as an encryption fails (45_time_coder.md R156). -/
theorem tcRounds_out_error {e : Err} : ∀ (is : List Nat) (lr : Bytes × Bytes), (∀ i ∈ is, 1 ≤ i ∧ i ≤ 6) →
    lr.1.length = 2 → lr.2.length = 2 → (tcRounds d k padb is lr).out = .error e →
    e.cause = .encryptFailed ∧ e.src = .none
  | [], _, _, _, _, h => by simp [tcRounds] at h
  | i :: is, lr, hi, h1, h2, h => by
    rcases Run.bind_out_error h with h | ⟨u, hu, h⟩
    · have := encrypt_out_error (tcRound_out_error (hi i (by simp)).1 (hi i (by simp)).2 h1 h)
      exact ⟨this.1, this.2.1⟩
    · obtain ⟨e1, e2, _⟩ := tcRound_out_ok hu
      exact tcRounds_out_error is u (fun j hj => hi j (by simp [hj])) (by rw [e1]; exact h2) e2 h

/-- Everything the time coder gives when it gives a value (45_time_coder.md R156). -/
theorem timeCoder_out_ok {p : Platform} {v k w : Bytes} {t : Text} (h : (timeCoder p v t k).out = .ok w) :
    v.length = 4 ∧ w.length = 4 ∧ ∃ padb lr, tcPad p.cpExt t = .ok padb ∧
      (tcRounds p.des k padb [1, 2, 3, 4, 5, 6] (left v halfLen, right v halfLen)).out = .ok lr ∧ w = lr.1 ++ lr.2 := by
  obtain ⟨_, h1, h⟩ := Run.bind_out_ok h
  obtain ⟨padb, h2, h⟩ := Run.bind_out_ok h
  obtain ⟨lr, h3, h⟩ := Run.bind_out_ok h
  cases h
  have hv : v.length = 4 := needLength_out_ok h1
  have hl := tcRounds_out_ok _ (by simp [halfLen, hv]) (by simp [halfLen, hv]) h3
  exact ⟨hv, by simp [hl.1, hl.2], padb, lr, Run.lift_out_ok h2, h3, rfl⟩

/-- With which errors the time coder can end (45_time_coder.md R156). -/
theorem timeCoder_out_error {p : Platform} {v k : Bytes} {t : Text} {e : Err} (h : (timeCoder p v t k).out = .error e) :
    (e = .plain .tcInputLen ∧ v.length ≠ 4) ∨ (∃ c, tcPad p.cpExt t = .error c ∧ e = padErr c) ∨
    (e.cause = .encryptFailed ∧ e.src = .none) := by
  rcases Run.bind_out_error h with h | ⟨_, h1, h⟩
  · exact .inl (needLength_out_error h)
  have hv : v.length = 4 := needLength_out_ok h1
  rcases Run.bind_out_error h with h | ⟨padb, _, h⟩
  · exact .inr (.inl (Run.lift_out_error h))
  rcases Run.bind_out_error h with h | ⟨lr, _, h⟩
  · exact .inr (.inr (tcRounds_out_error _ _ (by simp) (by simp [halfLen, hv]) (by simp [halfLen, hv]) h))
  · cases h

/-- The two errors of the padding (45_time_coder.md R154, R155). -/
theorem padErr_cases {ext : List (CharCode × Byte)} {t : Text} {c : Cause} (h : tcPad ext t = .error c) :
    padErr c = .about .uid .unmappableChar ∨ padErr c = .plain .padUidLen := by
  rcases tcPad_error h with rfl | rfl
  · exact .inl rfl
  · exact .inr rfl

end Coder

section Derivation

/-- Under `LOW4` at most four bytes of the time enter the mix (44_orchestrator.md R131). -/
theorem mixedTime_low4_length (t : Nat) : (mixedTime .low4 t).length ≤ 4 := by
  simp only [mixedTime]
  by_cases hc : resultLen < (timeBytes t).length
  · rw [if_pos hc]; simp [resultLen]
  · rw [if_neg hc]; simp only [resultLen] at hc; omega

/-- Everything the opening of a derivation gives when it gives a value (44_orchestrator.md R134). -/
theorem genSetup_out_ok {p : Platform} {uid app khx : Option Text} {f : Bytes × Bytes × Bytes}
    (h : (genSetup p uid app khx).out = .ok f) :
    normalizeIdentifier p.cpExt uid = .ok f.1 ∧ normalizeIdentifier p.cpExt app = .ok f.2.1 ∧
    decodeKeyBytes khx = .ok f.2.2 ∧ desKs p.des f.2.2 = .ok ∧
    genSetup p uid app khx = { reqs := [.desKs f.2.2], out := .ok f } := by
  have hs := h
  obtain ⟨a, h1, h⟩ := Run.bind_out_ok h
  obtain ⟨b, h2, h⟩ := Run.bind_out_ok h
  obtain ⟨c, h3, h⟩ := Run.bind_out_ok h
  obtain ⟨_, h4, h⟩ := Run.bind_out_ok h
  cases h
  have h1 := Run.lift_out_ok h1
  have h2 := Run.lift_out_ok h2
  have h3 := Run.lift_out_ok h3
  have h4' := bindKey_out_ok h4
  refine ⟨h1, h2, h3, h4', ?_⟩
  simp only [genSetup, h1, h2, h3, Run.lift_ok, Run.ok_bind, bindKey, h4']
  rfl

end Derivation

end Sys2Proof.Machine
end

