-- ==== Sys2Proof/Tests/Slice0.lean ====
section
/-! SUPPORT. Tests on fixed values. Expected values are those of spec/95_test_vectors.md (the section is named at each
group) or worked out by hand from the rule named. The theorems `witness_…` show states and operands that meet all
hypotheses of the statement they name, one for each clause, at the ends of the ranges. -/

namespace Sys2Proof.Tests

open Sys2Proof.Machine Sys2Proof.Config Sys2Proof.Claims

/-! Helpers. -/

/-- `count` bytes (or character codes) of a number, the first the most significant. -/
def hex (count n : Nat) : Bytes := (List.range count).map fun i => BitVec.ofNat 8 (n / 256 ^ (count - 1 - i))

/-- The state after reset with a chosen DES unit. -/
def withDes (d : DesUnit) : State := { State.reset with plat := { decidedPlatform with des := d } }

/-- The state after reset with the stand-in `STUB`. -/
def stub : State := withDes .stub

/-- What one step leaves of a word put in front: `RES`, `STATUS`, `CAUSE`, `DESERR`, the number of requests. -/
def ran (s : State) (w : Nat) : Option (Bytes × Byte × Byte × Byte × Nat) :=
  match step (s.withFetchWord 16 w) with
  | .next t => some (t.res, t.status, t.cause, t.deserr, t.requests.length)
  | .fault _ => none
  | .refused _ => none

/-- A completion with a value and a number of requests. -/
def ok (v : Bytes) (n : Nat) : Option (Bytes × Byte × Byte × Byte × Nat) := some (v, 0x08, 0x00, 0x00, n)

/-- An error without a DES code. -/
def err (status cause : Byte) (n : Nat) : Option (Bytes × Byte × Byte × Byte × Nat) := some ([], status, cause, 0x00, n)

/-- The texts of case G1 (section 3.1): "USERID", "APPNAME", "A1B2C3D4E5F6A7B8". -/
def g1 (d : DesUnit) (now : Time) : State :=
  { withDes d with
    uid := some (hex 6 0x555345524944), app := some (hex 7 0x4150504E414D45),
    khx := some (hex 16 0x41314232433344344535463641374238), now := now }

/-- The first `TCODE` vector (section 2.7). -/
def tom (d : DesUnit) (opa : Bytes) : State :=
  { withDes d with uid := some (hex 3 0x544F4D), key := hex 8 0x0123456789ABCDEF, opa := opa }

/-- A sequence given by its values from index 1 on. -/
def seq (xs : List Bytes) (i : Nat) : Bytes := xs.getD (i - 1) []

/-! Decoding: the words written out from 30_encoding.md R70, R72, R73, as op then arg. -/

theorem test_decode_normid_uid : decode (0x01#8 ++ 0x00#8) = .ok (.normid .uid) := by decide
theorem test_decode_normid_app : decode (0x01#8 ++ 0x01#8) = .ok (.normid .app) := by decide
theorem test_decode_deckey : decode (0x02#8 ++ 0x00#8) = .ok .deckey := by decide
theorem test_decode_encr : decode (0x03#8 ++ 0x00#8) = .ok .encr := by decide
theorem test_decode_xorv : decode (0x04#8 ++ 0x00#8) = .ok .xorv := by decide
theorem test_decode_bits : decode (0x05#8 ++ 0x00#8) = .ok .bits := by decide
theorem test_decode_tenc : decode (0x06#8 ++ 0x00#8) = .ok .tenc := by decide
theorem test_decode_tmix : decode (0x07#8 ++ 0x00#8) = .ok .tmix := by decide
theorem test_decode_tpad : decode (0x08#8 ++ 0x00#8) = .ok .tpad := by decide
theorem test_decode_perm : decode (0x09#8 ++ 0x06#8) = .ok (.perm 6) := by decide
theorem test_decode_perm_255 : decode (0x09#8 ++ 0xFF#8) = .ok (.perm 255) := by decide
theorem test_decode_tcode : decode (0x0A#8 ++ 0x00#8) = .ok .tcode := by decide
theorem test_decode_xlatc : decode (0x0B#8 ++ 0x1F#8) = .ok (.xlatc 31) := by decide
theorem test_decode_xlat : decode (0x0C#8 ++ 0x00#8) = .ok .xlat := by decide
theorem test_decode_gen : decode (0x0D#8 ++ 0x00#8) = .ok .gen := by decide

theorem test_decode_reserved_op :
    [0x0000#16, 0x00FF#16, 0x0E00#16, 0xFF00#16].map decode = List.replicate 4 (.error .reservedOpcode) := by decide

theorem test_decode_reserved_arg :
    [0x0102#16, 0x0201#16, 0x0B00#16, 0x0C01#16, 0x0DFF#16].map decode = List.replicate 5 (.error .reservedArg) := by
  decide

theorem test_table_word : decodeTableWord 16 0x0B1F = some (.xlatc 31) ∧ decodeTableWord 16 0x0B00 = none := by decide

/-- The one check of WellFormed refuses the one operand value that has no encoding (R73). -/
theorem test_ill_formed_xlatc : (Instr.xlatc 0).wellFormed = false ∧ (Instr.xlatc 1).wellFormed = true := by decide

/-! The code page, whitespace and hex digits (41_field_encoder.md R90, R91, R93, R96). -/

theorem test_code_page :
    [0x20, 0x41, 0x49, 0x4A, 0x52, 0x53, 0x5A, 0x30, 0x39].map cp =
      [0x40, 0xC1, 0xC9, 0xD1, 0xD9, 0xE2, 0xE9, 0xF0, 0xF9].map some := by decide

theorem test_code_page_lower :
    [0x61, 0x69, 0x6A, 0x72, 0x73, 0x7A].map (cpByte lowerCase) =
      [0x81, 0x89, 0x91, 0x99, 0xA2, 0xA9].map some ∧ cpByte lowerCase 0x23 = none := by decide

/-! `ENCR` (section 2.1). -/

theorem test_encr_stub :
    ran { stub with key := hex 8 0x0123456789ABCDEF, opa := hex 8 0xE3D6D44040404040 } 0x0300 =
      ok (hex 8 0xD7F70527C9EB8D0C) 2 := by decide +kernel

theorem test_encr_rejected :
    ran { withDes .stubRej with key := hex 8 0x0101010101010101, opa := hex 8 0xE3D6D44040404040 } 0x0300 =
      some ([], 0x02, 0x20, 0x07, 1) := by decide +kernel

/-- The known answer of 47_des_reference.md R186. -/
theorem test_standard_des :
    (stdDesE (hex 8 0x133457799BBCDFF1) (hex 8 0x0123456789ABCDEF)).toList = hex 8 0x85E813540F0AB405 := by
  decide +kernel

/-! `NORMID` (section 2.2). -/

theorem test_normid_user :
    ran { stub with uid := some (hex 6 0x202075736572) } 0x0100 = ok (hex 8 0xA4A2859940404040) 0 := by decide +kernel

theorem test_normid_unmappable_before_length :
    ran { stub with app := some (hex 10 0x41424344454647484923) } 0x0101 = err 0x24 0x44 0 := by decide +kernel

/-! `DECKEY` (section 2.3). -/

theorem test_deckey_spaced :
    ran { stub with khx := some (hex 17 0x4120314232433344344535463641374238) } 0x0200 =
      ok (hex 8 0xA1B2C3D4E5F6A7B8) 1 := by decide +kernel

theorem test_deckey_length_before_digits :
    ran { stub with khx := some (hex 17 0x4131423243334434453546364137424739) } 0x0200 = err 0x31 0x05 0 := by
  decide +kernel

/-! `XORV`, `BITS` (section 2.4). -/

theorem test_xorv_tail :
    ran { stub with opa := hex 2 0xFF00, opb := hex 4 0x0F0F0F0F } 0x0400 = ok (hex 4 0xF00F0F0F) 0 := by decide +kernel

theorem test_xorv_longer_first :
    ran { stub with opa := hex 4 0xA1B2C3D4, opb := hex 2 0x03E8 } 0x0400 = ok (hex 4 0xA25AC3D4) 0 := by decide +kernel

theorem test_bits : ran { stub with opa := hex 2 0x017B } 0x0500 = ok (hex 16 0x00000000000000010001010101000101) 0 := by
  decide +kernel

/-! `TENC`, `TMIX` (section 2.5). -/

theorem test_tenc_leading_zero : ran { stub with now := 2147483648 } 0x0600 = ok (hex 5 0x0080000000) 1 := by
  decide +kernel

theorem test_tenc_largest : ran { stub with now := 9223372036854775807 } 0x0600 = ok (hex 8 0x7FFFFFFFFFFFFFFF) 1 := by
  decide +kernel

theorem test_tmix_left : ran { stub with now := 1000, opa := hex 4 0xA1B2C3D4 } 0x0700 = ok (hex 4 0xA25AC3D4) 1 := by
  decide +kernel

theorem test_tmix_fault_policy :
    ran { stub with
      now := 78187493530, opa := hex 4 0xA1B2C3D4, plat := { decidedPlatform with timeWide := .fault } } 0x0700 =
      ok (hex 5 0xB38695AC9A) 1 := by decide +kernel

/-! `PERM` (section 2.6), `TPAD` and `TCODE` (section 2.7). -/

theorem test_perm_1 : ran { stub with opa := hex 2 0x017B } 0x0901 = ok (hex 2 0xA32A) 0 := by decide +kernel

theorem test_perm_all :
    [2, 3, 4, 5, 6].map (fun i => ran { stub with opa := hex 2 0x1234 } (0x0900 + i)) =
      [0x1234, 0x10B4, 0x6809, 0xA20C, 0x1624].map (fun v => ok (hex 2 v) 0) := by decide +kernel

theorem test_tpad_trimmed :
    ran { stub with uid := some (hex 6 0x20544F4D2020) } 0x0800 = ok (hex 12 0xE3D6D4555555555555555555) 0 := by
  decide +kernel

theorem test_tcode_stub : ran (tom .stub (hex 4 0x12345678)) 0x0A00 = ok (hex 4 0xD7BDDE4C) 7 := by decide +kernel

theorem test_tcode_length_before_padding :
    ran { tom .stub (hex 3 0x123456) with uid := some (hex 13 0x4142434445464748494A4B4C4D) } 0x0A00 =
      err 0x03 0x30 0 := by decide +kernel

/-! `XLATC`, `XLAT` (section 2.8). -/

theorem test_xlatc_wraps :
    [31, 32, 33, 255].map (fun n => ran { stub with opa := hex 4 0x07247F79 } (0x0B00 + n)) =
      [0x51, 0x36, 0x42, 0x51].map (fun c => ok [c] 0) := by decide +kernel

theorem test_xlat : ran { stub with opa := hex 4 0x07247F79 } 0x0C00 = ok (hex 8 0x51484F4148315456) 0 := by
  decide +kernel

/-! `GEN` (sections 3.1 to 3.3), whole and by the sequencer. -/

theorem test_gen_stub : ran (g1 .stub 1700000000) 0x0D00 = ok (hex 8 0x4659494B4C315943) 10 := by decide +kernel

theorem test_gen_failed_round : ran (g1 .stubRej 1700000000) 0x0D00 = some ([], 0x02, 0x21, 0x09, 5) := by
  decide +kernel

theorem test_gen_sequencer :
    ∃ t, runTicks genTick 13 (genStart (g1 .stub 1700000000)) = .over t ∧ t.res = hex 8 0x4659494B4C315943 :=
  ⟨_, rfl, by decide +kernel⟩

/-! Reserved words and host transactions (20_memory.md R57, R58; 30_encoding.md R74 to R76). -/

theorem test_reserved_word : ran stub 0x0D07 = err 0x04 0x41 0 := by decide +kernel

theorem test_read_status :
    ∃ t, step { stub with inbox := [.rd 7] } = .next t ∧ t.reply = some (.byte 0x00) := ⟨_, rfl, rfl⟩

/-! Witnesses: what meets the hypotheses of each statement, clause by clause. -/

theorem witness_DecodeOfEncode :
    [Instr.perm 0, .perm 255, .xlatc 1, .xlatc 255, .normid .app].all Instr.wellFormed = true := by decide

theorem witness_EncodeOfDecode : decode 0x09FF#16 = .ok (.perm 255) := by decide

theorem witness_ReservedWordsRaiseIllegal :
    ({ stub with inbox := [.cmd 0x0E00#16] } : State).inbox = .cmd 0x0E00#16 :: [] ∧
    (0x00FF#16).toNat / 256 = 0 ∧ 14 ≤ (0x0E00#16).toNat / 256 ∧ 14 ≤ (0xFFFF#16).toNat / 256 ∧
    ((0x0102#16).toNat / 256 = 1 ∧ 2 ≤ (0x0102#16).toNat % 256) ∧
    ((0x01FF#16).toNat / 256 = 1 ∧ 2 ≤ (0x01FF#16).toNat % 256) ∧
    ((0x0B00#16).toNat / 256 = 11 ∧ (0x0B00#16).toNat % 256 = 0) ∧
    ((0x0201#16).toNat / 256 ∈ [2, 3, 4, 5, 6, 7, 8, 10, 12, 13] ∧ (0x0201#16).toNat % 256 ≠ 0) ∧
    ((0x0DFF#16).toNat / 256 ∈ [2, 3, 4, 5, 6, 7, 8, 10, 12, 13] ∧ (0x0DFF#16).toNat % 256 ≠ 0) :=
  ⟨rfl, by simp⟩

theorem witness_StepRunsDecodedCommand :
    ({ stub with inbox := [.cmd 0x0D00#16, .rd 6] } : State).inbox = .cmd 0x0D00#16 :: [.rd 6] ∧
    decode 0x0D00#16 = .ok .gen := by decide

theorem witness_ResetEventClearsRegisters :
    ({ tom .stub [1] with inbox := [.reset, .rd 7] } : State).inbox = .reset :: [.rd 7] := by decide

/-- A text of 64 characters and one of 65; a byte string of 16 and one of 17; register numbers 2, 3, 5, 6, 11. -/
theorem witness_HostWriteSetsRegister :
    ({ stub with inbox := [.wr 2 (.text (some (List.replicate 64 0x41)))] } : State).inbox =
      .wr 2 (.text (some (List.replicate 64 0x41))) :: [] ∧
    (∀ t ∈ some (List.replicate 64 (0x41 : CharCode)), t.length ≤ 64) ∧ (∀ t ∈ (none : Option Text), t.length ≤ 64) ∧
    (List.replicate 16 (0x00 : Byte)).length ≤ 16 ∧
    (∀ v ∈ [(2, RegValue.text (some (List.replicate 65 0x41))), (2, .bytes []), (3, .bytes (List.replicate 17 0)),
        (3, .text none), (5, .byte 0), (6, .bytes []), (11, .text none)],
      ¬ (v.1 ≤ 2 ∧ ∃ x, v.2 = .text x ∧ ∀ t ∈ x, t.length ≤ 64) ∧
      ¬ (3 ≤ v.1 ∧ v.1 ≤ 5 ∧ ∃ b, v.2 = .bytes b ∧ b.length ≤ 16)) := by
  refine ⟨rfl, by simp, by simp, by simp, ?_⟩
  intro v hv
  simp only [List.mem_cons, List.not_mem_nil, or_false] at hv
  rcases hv with rfl | rfl | rfl | rfl | rfl | rfl | rfl <;> simp

theorem witness_HostReadDelivers :
    ({ stub with inbox := [.rd 10] } : State).inbox = .rd 10 :: [] ∧
    [RegValue.text stub.uid, .text stub.app, .text stub.khx, .bytes stub.opa, .bytes stub.opb, .bytes stub.key,
      .bytes stub.res, .byte stub.status, .byte stub.cause, .byte stub.deserr, .time stub.now][10]? =
      some (.time 0) ∧
    ({ stub with inbox := [.rd 11] } : State).inbox = .rd 11 :: [] ∧ 11 ≤ 11 := by decide

theorem witness_IdleAndClockSteps :
    stub.inbox = [] ∧ ({ stub with inbox := [.clock 5] } : State).inbox = .clock 5 :: [] := by decide

theorem witness_EveryCommandCompletesOrRaises :
    ({ stub with inbox := [.cmd 0x0D00#16] } : State).inbox = .cmd 0x0D00#16 :: [] := by decide

theorem witness_RaisesOnlyListedCauses :
    (∃ t, exec (.xlatc 1) stub = .next t ∧ t.status ≠ 0x08) ∧
    (∃ t, exec .gen stub = .next t ∧ t.status ≠ 0x08 ∧ stub.plat.timeWide = .low4) :=
  ⟨⟨_, rfl, by decide⟩, ⟨_, rfl, by decide, by decide⟩⟩

theorem witness_StatusAndCauseAgree :
    ∃ t, step { stub with inbox := [.cmd 0x0D00#16] } = .next t ∧ t.status = 0x11 := ⟨_, rfl, by decide⟩

theorem witness_CommandsKeepOperands :
    ∃ t, step { tom .stub (hex 4 0x12345678) with inbox := [.cmd 0x0A00#16] } = .next t ∧ t.status = 0x08 :=
  ⟨_, rfl, by decide +kernel⟩

theorem witness_OutcomeDependsOnRowOnly :
    let a := tom .stub (hex 4 0x12345678)
    let b := { a with app := some [], khx := some [], opb := [1], res := [2], status := 0x04, cause := 0x40, now := 7 }
    (∀ r ∈ reads .tcode, a.readReg r = b.readReg r) ∧ a.plat = b.plat ∧ a ≠ b ∧
    (∃ t, exec .tcode a = .next t) ∧ ∃ t, exec .tcode b = .next t :=
  ⟨by decide, by decide, by decide, ⟨_, rfl⟩, ⟨_, rfl⟩⟩

theorem witness_CharacterTables :
    cpByte lowerCase 0x20 = some 0x40 ∧ cpByte lowerCase 0x7A = some 0xA9 ∧ cpByte [] 0x7A = none ∧
    hexval 0x66 = some 15 ∧ isws 0x0D = true := by decide

/-- Two spaces and then eight characters, the last a trailing space. -/
theorem witness_NormidField :
    idText { stub with uid := some (hex 10 0x20204142434445464720) } .uid = some (hex 2 0x2020 ++ hex 8 0x4142434445464720) ∧
    AllWs (hex 2 0x2020) ∧ StartsPlain (hex 8 0x4142434445464720) ∧
    Encodes stub.plat.cpExt (hex 8 0x4142434445464720) (hex 8 0xC1C2C3C4C5C6C740) ∧
    (hex 8 0x4142434445464720).length ≤ 8 :=
  ⟨by decide +kernel, by unfold AllWs; decide +kernel, ⟨0x41, hex 7 0x42434445464720, by decide +kernel, by decide⟩,
    by unfold Encodes; decide +kernel, by decide +kernel⟩

theorem witness_NormidErrors :
    idText stub .app = none ∧
    (idText { stub with uid := some [] } .uid = some [] ∧ AllWs []) ∧
    (idText { stub with uid := some [0x20, 0x09] } .uid = some [0x20, 0x09] ∧ AllWs [0x20, 0x09]) ∧
    (idText { stub with app := some [0x41, 0x09] } .app = some ([] ++ [0x41, 0x09]) ∧ StartsPlain [0x41, 0x09] ∧
      ∃ c ∈ [(0x41 : CharCode), 0x09], cpByte stub.plat.cpExt c = none) ∧
    (idText { stub with uid := some (hex 9 0x414243444546474820) } .uid = some ([] ++ hex 9 0x414243444546474820) ∧
      StartsPlain (hex 9 0x414243444546474820) ∧
      Encodes stub.plat.cpExt (hex 9 0x414243444546474820) (hex 9 0xC1C2C3C4C5C6C7C840) ∧
      8 < (hex 9 0x414243444546474820).length) :=
  ⟨by decide, ⟨by decide, by unfold AllWs; decide⟩, ⟨by decide, by unfold AllWs; decide⟩,
    ⟨by decide, ⟨0x41, [0x09], rfl, by decide⟩, 0x09, by decide, by decide⟩,
    ⟨by decide +kernel, ⟨0x41, hex 8 0x4243444546474820, by decide +kernel, by decide⟩,
      by unfold Encodes; decide +kernel, by decide +kernel⟩⟩

theorem witness_NormidFieldStartsPlain :
    ({ stub with uid := some [0x20, 0x5A] } : State).plat.cpExt = lowerCase ∧
    Yields (.normid .uid) { stub with uid := some [0x20, 0x5A] } (hex 8 0xE940404040404040) :=
  ⟨rfl, _, rfl, by decide +kernel, by decide +kernel⟩

theorem witness_DeckeyKeyBytes :
    ({ stub with khx := some (hex 17 0x4120314232433344344535463641376638) } : State).khx =
      some (hex 17 0x4120314232433344344535463641376638) ∧
    (keyChars (hex 17 0x4120314232433344344535463641376638)).map hexval =
      [10, 1, 11, 2, 12, 3, 13, 4, 14, 5, 15, 6, 10, 7, 15, 8].map some ∧
    desKs .stub (hex 8 0xA1B2C3D4E5F6A7F8) = .ok ∧
    (keyChars (hex 16 0x30313031303130313031303130313031)).map hexval =
      [0, 1, 0, 1, 0, 1, 0, 1, 0, 1, 0, 1, 0, 1, 0, 1].map some ∧
    desKs .stubRej (hex 8 0x0101010101010101) = .fail 0x07 := by
  unfold keyChars; decide +kernel

theorem witness_DeckeyErrors :
    stub.khx = none ∧
    (∀ t ∈ [hex 15 0x413142324333443445354636413742, hex 17 0x4131423243334434453546364137423839],
      (keyChars t).length ≠ 16) ∧
    (keyChars (hex 17 0x2047314232433344344535463641374238)).length = 16 ∧
    (∃ c ∈ keyChars (hex 17 0x2047314232433344344535463641374238), hexval c = none) := by
  unfold keyChars; decide +kernel

theorem witness_DeckeyIgnoresCaseAndSpacing :
    (keyChars (hex 16 0x41314232433344344535463641374238)).map hexval =
      (keyChars (hex 17 0x6131206232633364346535663661376238)).map hexval ∧
    (∃ t, exec .deckey { stub with khx := some (hex 16 0x41314232433344344535463641374238) } = .next t) ∧
    ∃ t, exec .deckey { stub with khx := some (hex 17 0x6131206232633364346535663661376238) } = .next t :=
  ⟨by unfold keyChars; decide +kernel, ⟨_, rfl⟩, ⟨_, rfl⟩⟩

theorem witness_EncrCompletes :
    (hex 8 0x0123456789ABCDEF).length = 8 ∧ (hex 8 0x4142434445464748).length = 8 ∧
    desKs .stub (hex 8 0x0123456789ABCDEF) = .ok ∧
    desE .stub (hex 8 0x0123456789ABCDEF) (hex 8 0x4142434445464748) =
      .ok #v[0x43, 0x60, 0x01, 0x22, 0xCF, 0xEC, 0x85, 0xAE] := by decide +kernel

theorem witness_EncrErrors :
    (tom .stub (hex 7 0)).opa.length ≠ 8 ∧ (tom .stub (hex 9 0)).opa.length ≠ 8 ∧ stub.key.length ≠ 8 ∧
    (hex 8 0x0101010101010101).length = 8 ∧ desKs .stubRej (hex 8 0x0101010101010101) = .fail 0x07 ∧
    (tom .stubRej (hex 8 0xFA00000000000000)).key.length = 8 ∧
    (tom .stubRej (hex 8 0xFA00000000000000)).opa.length = 8 ∧
    desKs .stubRej (hex 8 0x0123456789ABCDEF) = .ok ∧
    desE .stubRej (hex 8 0x0123456789ABCDEF) (hex 8 0xFA00000000000000) = .fail 0x09 := by decide +kernel

/-- `XORV`: indices below, at and beyond the shorter length; an empty `OPB`; equal operands. -/
theorem witness_XorvResult :
    let s := { stub with opa := hex 2 0xFF00, opb := hex 4 0x0F0F0F0F }
    let t := { stub with opa := hex 4 0x0F0F0F0F, opb := hex 2 0xFF00 }
    (1 < s.opa.length ∧ 1 < s.opb.length) ∧ (s.opa.length ≤ 2 ∧ 2 < s.opb.length) ∧ (s.opa.length ≤ 3 ∧ 3 < s.opb.length) ∧
    (t.opb.length ≤ 2 ∧ 2 < t.opa.length) ∧ stub.opb = [] ∧ stub.opb = stub.opa := by decide +kernel

theorem witness_BitsResult : 15 < ({ stub with opa := hex 16 1 } : State).opa.length ∧ 7 < 8 := by decide

theorem witness_PackInvertsBits :
    (List.replicate 16 true).length % 8 = 0 ∧ 8 * 1 < (List.replicate 16 true).length ∧ ([] : Bits).length % 8 = 0 := by
  decide

theorem bigEndian_foldl (b : Bytes) (a : Nat) :
    b.foldl (fun n x => 256 * n + x.toNat) a = a * 256 ^ b.length + bigEndian b := by
  induction b generalizing a with
  | nil => simp [bigEndian]
  | cons x t ih =>
    simp only [bigEndian, List.foldl_cons, List.length_cons]
    rw [ih, ih (256 * 0 + x.toNat)]
    ring

theorem bigEndian_cons (x : Byte) (t : Bytes) : bigEndian (x :: t) = x.toNat * 256 ^ t.length + bigEndian t := by
  simp only [bigEndian, List.foldl_cons]
  rw [bigEndian_foldl]
  simp [bigEndian]

theorem bigEndian_lt (b : Bytes) : bigEndian b < 256 ^ b.length := by
  induction b with
  | nil => simp [bigEndian]
  | cons x t ih =>
    rw [bigEndian_cons]
    have := x.isLt
    simp only [List.length_cons, pow_succ]
    nlinarith

/-- The value of a byte string with leading bit 0. -/
theorem leadingZero_lt {b : Bytes} {n : Nat} (h : LeadingZero b) (hn : b.length ≤ n + 1) :
    bigEndian b < 128 * 256 ^ n := by
  obtain ⟨x, r, rfl, hx⟩ := h
  rw [bigEndian_cons]
  have h1 := bigEndian_lt r
  have h2 : 256 ^ r.length ≤ 256 ^ n := Nat.pow_le_pow_right (by omega) (by simpa using hn)
  nlinarith

theorem timeEncoding_of {b : Bytes} {t n : Nat} (h : LeadingZero b) (hv : bigEndian b = t) (hl : b.length = n + 2)
    (ht : 128 * 256 ^ n ≤ t) : IsTimeEncoding b t := by
  refine ⟨h, hv, fun b' hb hv' => ?_⟩
  by_contra hc
  have := leadingZero_lt hb (show b'.length ≤ n + 1 by omega)
  omega

/-- Times of one, two, four and five bytes: 0, 1000, 2^31 - 1, 2^31; both policies. -/
theorem witness_TmixResult :
    (tom .stub (hex 4 0xA1B2C3D4)).opa.length = 4 ∧ IsTimeEncoding (hex 2 0x03E8) (1000#63).toNat ∧
    IsTimeEncoding (hex 4 0x7FFFFFFF) (2147483647#63).toNat ∧ (2147483647#63).toNat < 2 ^ 31 ∧
    IsTimeEncoding (hex 5 0x0080000000) (2147483648#63).toNat ∧ 2 ^ 31 ≤ (2147483648#63).toNat ∧
    stub.plat.timeWide = .low4 ∧ ({ decidedPlatform with timeWide := .fault } : Platform).timeWide = .fault :=
  ⟨by decide +kernel, timeEncoding_of (n := 0) ⟨0x03, [0xE8], by decide +kernel, by decide⟩ (by decide +kernel) rfl (by decide),
    timeEncoding_of (n := 2) ⟨0x7F, [0xFF, 0xFF, 0xFF], by decide +kernel, by decide⟩ (by decide +kernel) rfl (by decide),
    by decide,
    timeEncoding_of (n := 3) ⟨0x00, [0x80, 0, 0, 0], by decide +kernel, by decide⟩ (by decide +kernel) rfl (by decide),
    by decide, rfl, rfl⟩

theorem witness_FourByteOperandRequired :
    stub.opa.length ≠ 4 ∧ (tom .stub (hex 3 0)).opa.length ≠ 4 ∧ (tom .stub (hex 5 0)).opa.length ≠ 4 ∧
    (1 : BitVec 8) ≠ 0 ∧ (255 : BitVec 8) ≠ 0 := by decide +kernel

theorem witness_TpadResult :
    ({ stub with uid := some (hex 14 0x204142434445464748494A4B4C09) } : State).uid =
      some ([0x20] ++ hex 12 0x4142434445464748494A4B4C ++ [0x09]) ∧
    AllWs [0x20] ∧ AllWs [0x09] ∧
    (StartsPlain (hex 12 0x4142434445464748494A4B4C) ∧ EndsPlain (hex 12 0x4142434445464748494A4B4C)) ∧
    Encodes stub.plat.cpExt (hex 12 0x4142434445464748494A4B4C) (hex 12 0xC1C2C3C4C5C6C7C8C9D1D2D3) ∧
    (hex 12 0x4142434445464748494A4B4C).length ≤ 12 ∧ Encodes stub.plat.cpExt [] [] :=
  ⟨by decide +kernel, by unfold AllWs; decide, by unfold AllWs; decide,
    ⟨⟨0x41, hex 11 0x42434445464748494A4B4C, by decide +kernel, by decide⟩,
      ⟨0x4C, hex 11 0x4142434445464748494A4B, by decide +kernel, by decide⟩⟩,
    by unfold Encodes; decide +kernel, by decide +kernel, rfl⟩

theorem witness_TpadErrors :
    stub.uid = none ∧
    (StartsPlain [0x54, 0x23] ∧ EndsPlain [0x54, 0x23] ∧ ∃ c ∈ [(0x54 : CharCode), 0x23], cpByte stub.plat.cpExt c = none) ∧
    (StartsPlain (hex 13 0x4142434445464748494A4B4C4D) ∧ EndsPlain (hex 13 0x4142434445464748494A4B4C4D) ∧
      Encodes stub.plat.cpExt (hex 13 0x4142434445464748494A4B4C4D) (hex 13 0xC1C2C3C4C5C6C7C8C9D1D2D3D4) ∧
      12 < (hex 13 0x4142434445464748494A4B4C4D).length) :=
  ⟨rfl, ⟨⟨0x54, [0x23], rfl, by decide⟩, ⟨0x23, [0x54], rfl, by decide⟩, 0x23, by decide, by decide⟩,
    ⟨⟨0x41, hex 12 0x42434445464748494A4B4C4D, by decide +kernel, by decide⟩,
      ⟨0x4D, hex 12 0x4142434445464748494A4B4C, by decide +kernel, by decide⟩,
      by unfold Encodes; decide +kernel, by decide +kernel⟩⟩

theorem witness_PermResult :
    (tom .stub (hex 2 0x017B)).opa.length = 2 ∧
    permRow (1 : BitVec 8).toNat = some [10, 2, 12, 4, 14, 6, 16, 8, 9, 1, 11, 3, 13, 5, 15, 7] ∧
    permRow (6 : BitVec 8).toNat = some [1, 16, 15, 14, 13, 12, 11, 10, 9, 8, 7, 6, 5, 4, 3, 2] := by decide +kernel

theorem witness_PermErrors :
    stub.opa.length ≠ 2 ∧ (tom .stub (hex 1 0)).opa.length ≠ 2 ∧ (tom .stub (hex 3 0)).opa.length ≠ 2 ∧
    (tom .stub (hex 2 0)).opa.length = 2 ∧ (0 : BitVec 8).toNat = 0 ∧ 7 ≤ (7 : BitVec 8).toNat ∧
    7 ≤ (255 : BitVec 8).toNat := by decide +kernel

theorem witness_PermKeepsWeight : Yields (.perm 6) (tom .stub (hex 2 0x017B)) (hex 2 0x6F40) :=
  ⟨_, rfl, by decide +kernel, by decide +kernel⟩

/-- The key of the `TCODE` vectors (section 2.7). -/
def tomKey : Bytes := hex 8 0x0123456789ABCDEF

/-- The padding of "TOM" (section 2.7). -/
def tomPad : Bytes := hex 12 0xE3D6D4555555555555555555

/-- What `STUB` answers in a round. -/
def answers (k padb : Bytes) (r : Nat → Bytes) (i : Nat) : Vector Byte 8 := stubE k (r i ++ padHalf padb i)

theorem roundsBefore_of (d : DesUnit) (k padb : Bytes) (l r : Nat → Bytes) (c : Nat → Vector Byte 8) (n : Nat)
    (h : ∀ i ∈ (List.range n).tail, desE d k (r i ++ padHalf padb i) = .ok (c i) ∧ l (i + 1) = r i ∧
      permute (xorv ((c i).toList.take 2) (l i)) i = .ok (r (i + 1))) : RoundsBefore d k padb l r c n := by
  intro i h1 h2
  apply h
  cases n with
  | zero => omega
  | succ n => simp [List.range_succ_eq_map]; exact ⟨i - 1, by omega, by omega⟩

/-- The halves of the first `TCODE` vector with `STUB` (section 2.7), before rounds 1 to 7. -/
def tomL : Nat → Bytes := seq ([0x1234, 0x5678, 0xE9B5, 0xAB44, 0xF42D, 0x254B, 0xD7BD].map (hex 2))

@[inherit_doc tomL]
def tomR : Nat → Bytes := seq ([0x5678, 0xE9B5, 0xAB44, 0xF42D, 0x254B, 0xD7BD, 0xDE4C].map (hex 2))

theorem witness_TcodeSixRounds :
    let s := tom .stub (hex 4 0x12345678)
    (s.key.length = 8 ∧ s.uid = some (hex 3 0x544F4D) ∧ s.opa.length = 4 ∧
      tcPad s.plat.cpExt (hex 3 0x544F4D) = .ok tomPad ∧ desKs s.plat.des s.key = .ok ∧ tomL 1 = s.opa.take 2 ∧
      tomR 1 = s.opa.drop 2) ∧
    RoundsBefore s.plat.des s.key tomPad tomL tomR (answers tomKey tomPad tomR) 7 :=
  ⟨by decide +kernel, roundsBefore_of _ _ _ _ _ _ _ (by decide +kernel)⟩

/-- Halves with which `STUB_REJ` refuses the block of round 6 and no earlier one. -/
def lateL : Nat → Bytes := seq ([0xC672, 0x98C4, 0x21A3, 0x33B8, 0x651C, 0x89B7].map (hex 2))

@[inherit_doc lateL]
def lateR : Nat → Bytes := seq ([0x98C4, 0x21A3, 0x33B8, 0x651C, 0x89B7, 0xFAE4].map (hex 2))

theorem witness_TcodeErrors :
    stub.key.length ≠ 8 ∧ ({ tom .stub [] with key := hex 9 0 } : State).key.length ≠ 8 ∧
    (({ stub with key := tomKey } : State).key.length = 8 ∧ ({ stub with key := tomKey } : State).uid = none) ∧
    ((tom .stub (hex 5 0)).key.length = 8 ∧ (tom .stub (hex 5 0)).uid = some (hex 3 0x544F4D) ∧
      (tom .stub (hex 5 0)).opa.length ≠ 4) ∧
    (tom .stub (hex 4 0)).opa.length = 4 ∧ tcPad lowerCase (hex 3 0x54234D) = .error .unmappableChar ∧
    tcPad lowerCase (hex 13 0x4142434445464748494A4B4C4D) = .error .padUidLen ∧
    tcPad lowerCase (hex 3 0x544F4D) = .ok tomPad ∧ desKs .stubRej (hex 8 0x0101010101010101) = .fail 0x07 ∧
    desKs .stubRej tomKey = .ok ∧
    (desE .stubRej tomKey (hex 2 0xFA78 ++ padHalf tomPad 1) = .fail 0x09 ∧
      RoundsBefore .stubRej tomKey tomPad (seq [hex 2 0x1234]) (seq [hex 2 0xFA78]) (fun _ => stubE [] []) 1) ∧
    (lateL 1 = (hex 4 0xC67298C4).take 2 ∧ lateR 1 = (hex 4 0xC67298C4).drop 2 ∧
      desE .stubRej tomKey (lateR 6 ++ padHalf tomPad 6) = .fail 0x09 ∧
      RoundsBefore .stubRej tomKey tomPad lateL lateR (answers tomKey tomPad lateR) 6) :=
  ⟨by decide, by decide +kernel, by decide +kernel, by decide +kernel, by decide +kernel, by decide +kernel,
    by decide +kernel, by decide +kernel, by decide +kernel, by decide +kernel,
    ⟨by decide +kernel, fun i h1 h2 => by omega⟩,
    ⟨by decide +kernel, by decide +kernel, by decide +kernel, roundsBefore_of _ _ _ _ _ _ _ (by decide +kernel)⟩⟩

theorem witness_TcodeInjective :
    Yields .tcode { tom .stub [] with opa := hex 4 0x12345678 } (hex 4 0xD7BDDE4C) :=
  ⟨_, rfl, by decide +kernel, by decide +kernel⟩

/-- The first start, the last whose clause on `start + 32` applies, and the first for which it does not. -/
theorem witness_XlatcResult :
    (tom .stub (hex 4 0x07247F79)).opa.length = 4 ∧ (1 : BitVec 8) ≠ 0 ∧ (223 : BitVec 8) ≠ 0 ∧
    (223 : BitVec 8).toNat + 32 ≤ 255 ∧ (224 : BitVec 8) ≠ 0 ∧ ¬ (224 : BitVec 8).toNat + 32 ≤ 255 := by decide +kernel

theorem witness_XlatResult : (tom .stub (hex 4 0x07247F79)).opa.length = 4 := by decide +kernel

/-- The key of case G1 (section 3.1). -/
def g1Key : Bytes := hex 8 0xA1B2C3D4E5F6A7B8

/-- The padding of case G1 (section 3.1). -/
def g1Pad : Bytes := hex 12 0xE4E2C5D9C9C4555555555555

/-- The halves of case G1 with `STUB` (section 3.1). -/
def g1L : Nat → Bytes := seq ([0x642C, 0xFA34, 0xF17A, 0x7582, 0x28F4, 0x8A18, 0x988A].map (hex 2))

@[inherit_doc g1L]
def g1R : Nat → Bytes := seq ([0xFA34, 0xF17A, 0x7582, 0x28F4, 0x8A18, 0x988A, 0xFFC2].map (hex 2))

/-- `R1` and `R2` of case G1 with `STUB` (section 3.1). -/
def g1R1 : Vector Byte 8 := #v[0x43, 0x77, 0x1A, 0x1D, 0x21, 0xB6, 0xE7, 0x5C]

@[inherit_doc g1R1]
def g1R2 : Vector Byte 8 := #v[0x01, 0x7F, 0x0B, 0x34, 0x87, 0xD4, 0xBB, 0x3A]

/-- What the opening and the first two steps of case G1 give with `STUB` (section 3.1), as the statements about `GEN`
ask for it. -/
def G1Opening (s : State) : Prop :=
  s.uid = some (hex 6 0x555345524944) ∧ normalizeIdentifier s.plat.cpExt s.uid = .ok (hex 8 0xE4E2C5D9C9C44040) ∧
  normalizeIdentifier s.plat.cpExt s.app = .ok (hex 8 0xC1D7D7D5C1D4C540) ∧ decodeKeyBytes s.khx = .ok g1Key ∧
  desKs s.plat.des g1Key = .ok ∧ desE s.plat.des g1Key (hex 8 0xE4E2C5D9C9C44040) = .ok g1R1 ∧
  desE s.plat.des g1Key (xorv g1R1.toList (hex 8 0xC1D7D7D5C1D4C540)) = .ok g1R2 ∧
  tcPad s.plat.cpExt (hex 6 0x555345524944) = .ok g1Pad

theorem g1_opening (d : DesUnit) (h : d = .stub ∨ d = .stubRej) (now : Time) : G1Opening (g1 d now) := by
  have h1 : G1Opening (g1 .stub 0) := by unfold G1Opening; decide +kernel
  have h2 : G1Opening (g1 .stubRej 0) := by unfold G1Opening; decide +kernel
  rcases h with rfl | rfl
  · exact h1
  · exact h2

theorem witness_GenCompletes :
    let s := g1 .stub 1700000000
    timeMix s.plat.timeWide (g1R2.toList.take 4) s.now.toNat = hex 4 0x642CFA34 ∧ (hex 4 0x642CFA34).length = 4 ∧
    g1L 1 = (hex 4 0x642CFA34).take 2 ∧ g1R 1 = (hex 4 0x642CFA34).drop 2 ∧
    RoundsBefore s.plat.des g1Key g1Pad g1L g1R (answers g1Key g1Pad g1R) 7 :=
  ⟨by decide +kernel, by decide +kernel, by decide +kernel, by decide +kernel,
    roundsBefore_of _ _ _ _ _ _ _ (by decide +kernel)⟩

/-- A code page in which a character has the code 0xFA, so that `STUB_REJ` refuses the first block. -/
def oddPlatform : Platform := { cpExt := [(0x23, 0xFA)], timeWide := .fault, des := .stubRej }

/-- The halves of G1 at another time, where `STUB_REJ` refuses the block of round 6 only. -/
def g1LateL : Nat → Bytes := seq ([0x7CD3, 0x784D, 0x1AC0, 0x09BA, 0x1322, 0xAA65].map (hex 2))

@[inherit_doc g1LateL]
def g1LateR : Nat → Bytes := seq ([0x784D, 0x1AC0, 0x09BA, 0x1322, 0xAA65, 0xFA4D].map (hex 2))

/-- Beside `g1_opening`: the first encryption refused, the second refused, Result4 of 5 bytes, a refused block in round
1 and in round 6. -/
theorem witness_GenAborts :
    (normalizeIdentifier oddPlatform.cpExt (some [0x23]) = .ok (hex 8 0xFA40404040404040) ∧
      desKs oddPlatform.des g1Key = .ok ∧ desE oddPlatform.des g1Key (hex 8 0xFA40404040404040) = .fail 0x09) ∧
    (decodeKeyBytes (some (hex 16 0x44394232433344344535463641374238)) = .ok (hex 8 0xD9B2C3D4E5F6A7B8) ∧
      desE .stubRej (hex 8 0xD9B2C3D4E5F6A7B8) (hex 8 0xE4E2C5D9C9C44040) =
        .ok (stubE (hex 8 0xD9B2C3D4E5F6A7B8) (hex 8 0xE4E2C5D9C9C44040)) ∧
      desE .stubRej (hex 8 0xD9B2C3D4E5F6A7B8)
        (xorv (stubE (hex 8 0xD9B2C3D4E5F6A7B8) (hex 8 0xE4E2C5D9C9C44040)).toList (hex 8 0xC1D7D7D5C1D4C540)) =
        .fail 0x09) ∧
    (timeMix .fault (g1R2.toList.take 4) 2147483648).length ≠ 4 ∧
    (timeMix .low4 (g1R2.toList.take 4) 1700000000 = hex 4 0x642CFA34 ∧
      desE .stubRej g1Key (g1R 1 ++ padHalf g1Pad 1) = .fail 0x09 ∧
      RoundsBefore .stubRej g1Key g1Pad g1L g1R (answers g1Key g1Pad g1R) 1) ∧
    (timeMix .low4 (g1R2.toList.take 4) 2108453753 = g1LateL 1 ++ g1LateR 1 ∧
      desE .stubRej g1Key (g1LateR 6 ++ padHalf g1Pad 6) = .fail 0x09 ∧
      RoundsBefore .stubRej g1Key g1Pad g1LateL g1LateR (answers g1Key g1Pad g1LateR) 6) :=
  ⟨by decide +kernel, by decide +kernel, by decide +kernel,
    ⟨by decide +kernel, by decide +kernel, fun i h1 h2 => by omega⟩,
    ⟨by decide +kernel, by decide +kernel, roundsBefore_of _ _ _ _ _ _ _ (by decide +kernel)⟩⟩

theorem witness_GenFailsLikeItsUnits :
    (∃ t, exec (.normid .uid) stub = .next t ∧ t.status ≠ 0x08) ∧
    (let s := { g1 .stub 0 with app := none }
     Yields (.normid .uid) s (hex 8 0xE4E2C5D9C9C44040) ∧ ∃ t, exec (.normid .app) s = .next t ∧ t.status ≠ 0x08) ∧
    (let s := { g1 .stub 0 with khx := none }
     Yields (.normid .uid) s (hex 8 0xE4E2C5D9C9C44040) ∧ Yields (.normid .app) s (hex 8 0xC1D7D7D5C1D4C540) ∧
      ∃ t, exec .deckey s = .next t ∧ t.status ≠ 0x08) :=
  ⟨⟨_, rfl, by decide⟩, ⟨⟨_, rfl, by decide +kernel, by decide +kernel⟩, _, rfl, by decide +kernel⟩,
    ⟨⟨_, rfl, by decide +kernel, by decide +kernel⟩, ⟨_, rfl, by decide +kernel, by decide +kernel⟩, _, rfl,
      by decide +kernel⟩⟩

theorem witness_GenTokenAlphabet : Yields .gen (g1 .stub 1700000000) (hex 8 0x4659494B4C315943) :=
  ⟨_, rfl, by decide +kernel, by decide +kernel⟩

/-- The two sides of the statement, on case G1 (program P3 with `STUB`). -/
theorem witness_GenFromUnitOperations :
    let s := g1 .stub 1700000000
    Yields .encr { s with opa := hex 8 0xE4E2C5D9C9C44040, key := g1Key } g1R1.toList ∧
    Yields .tmix { s with opa := g1R2.toList.take 4 } (hex 4 0x642CFA34) ∧
    Yields .tcode { s with opa := hex 4 0x642CFA34, key := g1Key } (hex 4 0x988AFFC2) ∧
    Yields .xlat { s with opa := hex 4 0x988AFFC2 } (hex 8 0x4659494B4C315943) :=
  ⟨⟨_, rfl, by decide +kernel, by decide +kernel⟩, ⟨_, rfl, by decide +kernel, by decide +kernel⟩,
    ⟨_, rfl, by decide +kernel, by decide +kernel⟩, _, rfl, by decide +kernel, by decide +kernel⟩

/-- `STEP` and `RND` of a command that is still running. -/
def counters : Tick → Option (Nat × Nat)
  | .running s => some (s.scratch.step, s.scratch.rnd)
  | .over _ => none

/-- The counters at the ends of their ranges: `GEN` begins, enters the time coder, ends round 6 and leaves step 5;
`TCODE` begins and ends round 6. -/
theorem witness_CountersOnlyAdvance :
    let g := genStart (g1 .stub 1700000000)
    let t := tcodeStart (tom .stub (hex 4 0x12345678))
    counters g = some (1, 0) ∧ counters (runTicks genTick 4 g) = some (5, 0) ∧
    counters (runTicks genTick 5 g) = some (5, 1) ∧ counters (runTicks genTick 11 g) = some (5, 7) ∧
    counters (runTicks genTick 12 g) = some (6, 7) ∧
    counters t = some (0, 1) ∧ counters (runTicks tcodeTick 6 t) = some (0, 7) := by
  decide +kernel

/-- A state after an error, at full capacity, with a command, a write, a read, a reset and a clock value pending. -/
def busy : State :=
  { stub with
    opa := List.replicate 16 0xFF, uid := some (List.replicate 64 0x41), status := 0x02, cause := 0x21, deserr := 0x09,
    inbox := [.cmd 0x0D00#16, .wr 5 (.bytes (List.replicate 16 0)), .wr 2 (.text none), .rd 10, .reset, .clock 1] }

theorem witness_busy_inv : busy.Inv :=
  ⟨by decide, ⟨by decide, fun _ => rfl, fun h => absurd h (by decide),
    fun _ => ⟨.encryptFailed, by decide, by decide, by decide⟩, fun h => absurd (by decide) h⟩, by decide⟩

theorem witness_StepKeepsInv : busy.Inv ∧ ∃ t, step busy = .next t := ⟨witness_busy_inv, _, rfl⟩

theorem witness_SafeRunsNeverStop : busy.Safe := ⟨witness_busy_inv, by decide⟩

theorem witness_OperandsChangeOnlyByHostOrReset :
    ∃ t, step { stub with inbox := [.wr 5 (.bytes [1])] } = .next t ∧ t.key ≠ stub.key := ⟨_, rfl, by decide⟩

theorem witness_ResultsChangeOnlyByCommandOrReset :
    ∃ t, step { stub with inbox := [.cmd 0#16] } = .next t ∧ t.status ≠ stub.status := ⟨_, rfl, by decide⟩

theorem witness_StandardDesIgnoresParity :
    (hex 8 0x0123456789ABCDEF).length = 8 ∧ (hex 8 0x0022446688AACCEE).length = 8 ∧
    ∀ i, i < 8 → (hex 8 0x0123456789ABCDEF).getD i 0 >>> 1 = (hex 8 0x0022446688AACCEE).getD i 0 >>> 1 := by
  decide +kernel

theorem witness_StandardDesNeverFails :
    (withDes .standard).plat.des = .standard ∧ ∃ t, exec .tcode (withDes .standard) = .next t := ⟨rfl, _, rfl⟩

end Sys2Proof.Tests
end

/-! What a command does to the operand registers (10_state.md R25), and which registers its outcome is a function of
(10_state.md R26, R35). -/

namespace Sys2Proof.Machine

/-- The six operand registers of R25 hold the same in both states. -/
def SameOperands (s t : State) : Prop :=
  t.uid = s.uid ∧ t.app = s.app ∧ t.khx = s.khx ∧ t.opa = s.opa ∧ t.opb = s.opb ∧ t.key = s.key

theorem sameOperands_finish (s : State) (m : Run Bytes) : SameOperands s (s.finish m) := by
  simp [SameOperands]

theorem sameOperands_raise (s : State) (e : Err) (q : List Request) : SameOperands s (s.raise e q) := by
  simp [SameOperands]

/-- A command word, reserved or not, ends in one of the two ends of a command, and neither writes an operand. -/
theorem runWord_sameOperands {w : CmdWord} {s t : State} (h : runWord w s = .next t) : SameOperands s t := by
  rcases runWord_cases w s with ⟨i, _, hw⟩ | ⟨e, _, hw⟩ <;> rw [hw] at h <;> cases h
  · exact sameOperands_finish s _
  · exact sameOperands_raise s _ _

/-- Each operation's pseudocode is a function of the registers of its row of R26 and of the platform (R35). -/
theorem runOf_congr {i : Instr} {s₁ s₂ : State} (hrow : ∀ r ∈ reads i, s₁.readReg r = s₂.readReg r)
    (hplat : s₁.plat = s₂.plat) : runOf i s₁ = runOf i s₂ := by
  cases i with
  | normid sel => cases sel <;> simp_all [reads, State.readReg, runOf, State.selected]
  | _ => simp_all [reads, State.readReg, runOf]

/-- What the end of a command writes is a function of the run alone, whatever the state was. -/
theorem finish_outputs_congr (s₁ s₂ : State) (m : Run Bytes) :
    (s₁.finish m).res = (s₂.finish m).res ∧ (s₁.finish m).status = (s₂.finish m).status ∧
    (s₁.finish m).cause = (s₂.finish m).cause ∧ (s₁.finish m).deserr = (s₂.finish m).deserr ∧
    (s₁.finish m).requests = (s₂.finish m).requests := by
  cases h : m.out with
  | ok v => simp [finish_of_ok _ h]
  | error e => simp [finish_of_error _ h]

end Sys2Proof.Machine

namespace Sys2Proof.Proofs

open Sys2Proof.Machine

/-- Settles O15: the step carries out the command word, whose end keeps the operand registers. -/
theorem commandsKeepOperands : Obligations.CommandsKeepOperands := by
  intro s w rest t hinbox hstep
  rw [step_cons hinbox] at hstep
  have hkept : SameOperands { s with inbox := rest } t := runWord_sameOperands hstep
  exact hkept

/-- Settles O16: both states run the same pseudocode, and the end of a command writes what the run says. -/
theorem outcomeDependsOnRowOnly : Obligations.OutcomeDependsOnRowOnly := by
  intro i s₁ s₂ t₁ t₂ hrow hplat h₁ h₂
  rw [exec_eq] at h₁ h₂
  cases h₁
  cases h₂
  rw [runOf_congr hrow hplat]
  exact finish_outputs_congr s₁ s₂ (runOf i s₂)

end Sys2Proof.Proofs

/-! What a host write does (20_memory.md R57): which writes take effect, on which register, and that every other one is
refused. -/

namespace Sys2Proof.Machine

theorem textFits_iff (x : Option Text) : textFits x = true ↔ ∀ t ∈ x, t.length ≤ 64 := by
  cases x with
  | none => simp [textFits]
  | some t => exact (decide_eq_true_iff (p := t.length ≤ Config.txtMax)).trans (by simp [Config.txtMax])

theorem bytesFit_iff (b : Bytes) : bytesFit b = true ↔ b.length ≤ 16 :=
  decide_eq_true_iff

/-- The number of a register (30_encoding.md R76). -/
def Reg.number : Reg → Nat
  | .uid => 0
  | .app => 1
  | .khx => 2
  | .opa => 3
  | .opb => 4
  | .key => 5
  | .res => 6
  | .status => 7
  | .cause => 8
  | .deserr => 9
  | .now => 10

theorem ofNumber_eq_some_iff {n : Nat} {r : Reg} : Reg.ofNumber n = some r ↔ n = r.number := by
  constructor
  · intro h
    unfold Reg.ofNumber at h
    split at h <;> cases h <;> rfl
  · rintro rfl
    cases r <;> rfl

/-- A write that the numbered register accepts is the whole effect of the transaction. -/
theorem hostWrite_of_writeReg {r : Reg} {v : RegValue} {s t : State} (h : s.writeReg r v = some t) :
    hostWrite r.number v s = .next t := by
  simp [hostWrite, ofNumber_eq_some_iff.mpr rfl, h]

/-- A host write takes effect or is refused as not well-formed; it ends in no other way. -/
theorem hostWrite_cases (n : Nat) (v : RegValue) (s : State) :
    (∃ t, hostWrite n v s = .next t) ∨ hostWrite n v s = .refused (.illFormedWrite n) := by
  unfold hostWrite
  split
  · exact .inr rfl
  · split
    · exact .inr rfl
    · exact .inl ⟨_, rfl⟩

/-- Only a transaction of a host that keeps the protocol takes effect. -/
theorem hostWrite_next_wellFormed {n : Nat} {v : RegValue} {s t : State} (h : hostWrite n v s = .next t) :
    (Event.wr n v).wellFormed = true := by
  obtain ⟨r, hr, hw⟩ := hostWrite_next h
  rw [ofNumber_eq_some_iff] at hr
  subst hr
  rcases writeReg_cases hw with ⟨x, rfl, rfl, hx, -⟩ | ⟨x, rfl, rfl, hx, -⟩ | ⟨x, rfl, rfl, hx, -⟩ |
    ⟨b, rfl, rfl, hb, -⟩ | ⟨b, rfl, rfl, hb, -⟩ | ⟨b, rfl, rfl, hb, -⟩ <;>
  simp [Event.wellFormed, Reg.number, *]

theorem hostWrite_refused {n : Nat} {v : RegValue} (s : State) (h : ¬ (Event.wr n v).wellFormed = true) :
    hostWrite n v s = .refused (.illFormedWrite n) := by
  rcases hostWrite_cases n v s with ⟨t, ht⟩ | hr
  · exact absurd (hostWrite_next_wellFormed ht) h
  · exact hr

/-- R57's three conditions on a write, by the type of its value: number, type and length agree with R76. -/
theorem wellFormed_wr_iff (n : Nat) (v : RegValue) :
    (Event.wr n v).wellFormed = true ↔
      (n ≤ 2 ∧ ∃ x, v = .text x ∧ ∀ t ∈ x, t.length ≤ 64) ∨
      (3 ≤ n ∧ n ≤ 5 ∧ ∃ b, v = .bytes b ∧ b.length ≤ 16) := by
  cases v with
  | text x => simp [Event.wellFormed, textFits_iff]
  | bytes b => simp [Event.wellFormed, bytesFit_iff, and_assoc]
  | byte x => simp [Event.wellFormed]
  | time t => simp [Event.wellFormed]

theorem hostWrite_text (s : State) {x : Option Text} (h : textFits x = true) :
    hostWrite 0 (.text x) s = .next { s with uid := x } ∧
    hostWrite 1 (.text x) s = .next { s with app := x } ∧
    hostWrite 2 (.text x) s = .next { s with khx := x } :=
  ⟨hostWrite_of_writeReg (r := .uid) (if_pos h), hostWrite_of_writeReg (r := .app) (if_pos h),
    hostWrite_of_writeReg (r := .khx) (if_pos h)⟩

theorem hostWrite_bytes (s : State) {b : Bytes} (h : bytesFit b = true) :
    hostWrite 3 (.bytes b) s = .next { s with opa := b } ∧
    hostWrite 4 (.bytes b) s = .next { s with opb := b } ∧
    hostWrite 5 (.bytes b) s = .next { s with key := b } :=
  ⟨hostWrite_of_writeReg (r := .opa) (if_pos h), hostWrite_of_writeReg (r := .opb) (if_pos h),
    hostWrite_of_writeReg (r := .key) (if_pos h)⟩

end Sys2Proof.Machine

namespace Sys2Proof.Proofs

open Sys2Proof.Machine

/-- Settles O8: the step is the host write itself; one that fits sets its register, any other meets the refusal. -/
theorem hostWriteSetsRegister : Obligations.HostWriteSetsRegister := by
  intro s n v rest hinbox s'
  have hstep : step s = hostWrite n v s' := step_cons hinbox
  rw [hstep]
  refine ⟨?text, ?bytes, ?refused⟩
  case text =>
    rintro x hx rfl
    obtain ⟨huid, happ, hkhx⟩ := hostWrite_text s' ((textFits_iff x).mpr hx)
    exact ⟨by rintro rfl; exact huid, by rintro rfl; exact happ, by rintro rfl; exact hkhx⟩
  case bytes =>
    rintro b hb rfl
    obtain ⟨hopa, hopb, hkey⟩ := hostWrite_bytes s' ((bytesFit_iff b).mpr hb)
    exact ⟨by rintro rfl; exact hopa, by rintro rfl; exact hopb, by rintro rfl; exact hkey⟩
  case refused =>
    intro htext hbytes
    exact hostWrite_refused s' fun hwf => ((wellFormed_wr_iff n v).mp hwf).elim htext hbytes

end Sys2Proof.Proofs

/-! Which command words the decoder rejects, and with which error (30_encoding.md R73 to R75), and what a rejected word
does to the machine (60_exceptions.md R196). -/

namespace Sys2Proof

theorem decodeNormid_reserved {arg : BitVec 8} (h : 2 ≤ arg.toNat) : decodeNormid arg = .error .reservedArg := by
  have h0 : arg ≠ 0 := by rintro rfl; simp at h
  have h1 : arg ≠ 1 := by rintro rfl; simp at h
  exact (if_neg h0).trans (if_neg h1)

theorem decodeXlatc_reserved {arg : BitVec 8} (h : arg.toNat = 0) : decodeXlatc arg = .error .reservedArg :=
  if_pos (BitVec.eq_of_toNat_eq h)

theorem decodeBare_reserved (i : Instr) {arg : BitVec 8} (h : arg.toNat ≠ 0) :
    decodeBare i arg = .error .reservedArg :=
  if_neg fun h0 => h (congrArg BitVec.toNat h0)

/-- R74: every operation code of R72 lies in 0x01..0x0D, so none of the decoder's rows is taken. -/
theorem decode_reservedOpcode {w : CmdWord} (h : w.toNat / 256 = 0 ∨ 14 ≤ w.toNat / 256) :
    decode w = .error .reservedOpcode := by
  rw [← opField_toNat] at h
  unfold decode
  split
  case h_14 => rfl
  all_goals omega

/-- R75 for `NORMID`, `XLATC` and the ten operations without operand; `PERM` reserves no `arg` (R73). -/
theorem decode_reservedArg {w : CmdWord}
    (h : (w.toNat / 256 = 1 ∧ 2 ≤ w.toNat % 256) ∨ (w.toNat / 256 = 11 ∧ w.toNat % 256 = 0) ∨
      (w.toNat / 256 ∈ [2, 3, 4, 5, 6, 7, 8, 10, 12, 13] ∧ w.toNat % 256 ≠ 0)) :
    decode w = .error .reservedArg := by
  rw [← opField_toNat, ← argField_toNat] at h
  rcases h with ⟨hop, harg⟩ | ⟨hop, harg⟩ | ⟨hop, harg⟩
  · simpa only [decode, hop] using decodeNormid_reserved harg
  · simpa only [decode, hop] using decodeXlatc_reserved harg
  · simp only [List.mem_cons, List.not_mem_nil, or_false] at hop
    rcases hop with hop | hop | hop | hop | hop | hop | hop | hop | hop | hop <;>
      simpa only [decode, hop] using decodeBare_reserved _ harg

end Sys2Proof

namespace Sys2Proof.Machine

/-- The one effect of a rejected word: its error is raised, with no request made. -/
theorem runWord_of_error {w : CmdWord} {e : DecodeError} (s : State) (h : decode w = .error e) :
    runWord w s = .next (s.raise (.plain (causeOfReject e)) []) := by
  simp [runWord, h]

/-- `Illegal` has `KIND` 4, names no register and carries no DES code (R28, R192, R193). -/
theorem raise_reservedOpcode (s : State) :
    s.raise (.plain .reservedOpcode) [] = Claims.failed s 0x04 0x40 0x00 [] := rfl

theorem raise_reservedArg (s : State) :
    s.raise (.plain .reservedArg) [] = Claims.failed s 0x04 0x41 0x00 [] := rfl

end Sys2Proof.Machine

namespace Sys2Proof.Proofs

open Sys2Proof.Machine

/-- Settles O3: the step carries out the word, which the decoder rejects; what it raises is the stated end. -/
theorem reservedWordsRaiseIllegal : Obligations.ReservedWordsRaiseIllegal := by
  intro s w rest hinbox
  have hstep : step s = runWord w { s with inbox := rest } := step_cons hinbox
  rw [hstep]
  constructor
  · intro hop
    rw [runWord_of_error _ (decode_reservedOpcode hop), causeOfReject, raise_reservedOpcode]
  · intro harg
    rw [runWord_of_error _ (decode_reservedArg harg), causeOfReject, raise_reservedArg]

end Sys2Proof.Proofs

/-! The two inverses of packing (43_bitops.md R122, R124): what a bit sequence's value is, and the byte of one
group of eight bits. -/

namespace Sys2Proof.Machine

/-- The fold of `bitsValue`, started at any `n`: the start ends up in front of all the bits. -/
theorem bitsValue_foldl (v : Bits) (n : Nat) :
    v.foldl (fun n b => 2 * n + b.toNat) n = 2 ^ v.length * n + bitsValue v := by
  induction v generalizing n with
  | nil => simp [bitsValue]
  | cons b t ih =>
    simp only [bitsValue, List.foldl_cons, List.length_cons]
    rw [ih, ih (2 * 0 + b.toNat)]
    ring

theorem bitsValue_cons (b : Bool) (t : Bits) : bitsValue (b :: t) = 2 ^ t.length * b.toNat + bitsValue t := by
  rw [← bitsValue_foldl]
  simp [bitsValue]

theorem bitsValue_lt (v : Bits) : bitsValue v < 2 ^ v.length := by
  induction v with
  | nil => simp [bitsValue]
  | cons b t ih =>
    rw [bitsValue_cons, List.length_cons, pow_succ]
    cases b <;> simp <;> omega

/-- The value as weights, the first bit's the largest (R124). -/
theorem bitsValue_eq_sum (v : Bits) :
    bitsValue v = ((List.range v.length).map fun j => (v.getD j false).toNat * 2 ^ (v.length - 1 - j)).sum := by
  induction v with
  | nil => rfl
  | cons b t ih =>
    rw [bitsValue_cons, ih, List.length_cons, List.range_succ_eq_map]
    simp [Function.comp_def, Nat.sub_sub, Nat.add_comm 1, mul_comm]

/-- The same weights as binary places: reading one off the value gives back the bit. -/
theorem bitsValue_testBit (v : Bits) (j : Nat) (h : j < v.length) :
    (bitsValue v).testBit (v.length - 1 - j) = v.getD j false := by
  induction v generalizing j with
  | nil => simp at h
  | cons b t ih =>
    rw [bitsValue_cons, Nat.testBit_two_pow_mul_add _ (bitsValue_lt t)]
    cases j with
    | zero => cases b <;> simp
    | succ j =>
      have hj : j < t.length := by simpa using h
      have hplace : t.length - (j + 1) = t.length - 1 - j := by omega
      have hlow : t.length - 1 - j < t.length := by omega
      simpa [hplace, hlow] using ih j hj

/-- The byte of one group of eight bits, first bit most significant (R124). -/
def groupByte (g : Bits) : Byte := BitVec.ofNat 8 (bitsValue g)

theorem pack_append (g t : Bits) (h : g.length = 8) : pack (g ++ t) = groupByte g :: pack t := by
  match g, h with
  | [_, _, _, _, _, _, _, _], _ => rfl

theorem groupByte_toNat (g : Bits) (h : g.length = 8) : (groupByte g).toNat = bitsValue g := by
  have hlt := bitsValue_lt g
  rw [h] at hlt
  simpa [groupByte] using hlt

theorem groupByte_getLsbD (g : Bits) (j : Nat) (h : g.length = 8) (hj : j < 8) :
    (groupByte g).getLsbD (7 - j) = g.getD j false := by
  have hbit := bitsValue_testBit g j (by omega)
  rw [h] at hbit
  simpa [BitVec.getLsbD, groupByte_toNat g h] using hbit

theorem groupByte_byteBits (x : Byte) : groupByte (byteBits x) = x := by
  refine BitVec.eq_of_getLsbD_eq fun i hi => ?_
  have hi' : 7 - (7 - i) = i := by omega
  have hbit := (groupByte_getLsbD (byteBits x) (7 - i) rfl (by omega)).trans (byteBits_getD x (7 - i) (by omega))
  rwa [hi'] at hbit

theorem pack_bitsOf (b : Bytes) : pack (bitsOf b) = b := by
  induction b with
  | nil => rfl
  | cons x t ih => rw [bitsOf, pack_append _ _ (byteBits_length x), groupByte_byteBits, ih]

/-- Byte `i` of a packed sequence is made of the sequence's `i`-th eight bits. -/
theorem pack_getD (v : Bits) (i : Nat) (hi : 8 * i + 8 ≤ v.length) :
    (pack v).getD i 0 = groupByte ((v.drop (8 * i)).take 8) := by
  induction i generalizing v with
  | zero =>
    rw [← List.take_append_drop 8 v, pack_append _ _ (by simp; omega)]
    simp
  | succ i ih =>
    rw [← List.take_append_drop 8 v, pack_append _ _ (by simp; omega), List.getD_cons_succ,
      ih _ (by simp; omega)]
    simp [Nat.mul_add, Nat.add_comm]

/-- Bit `8*i + j` of the expansion is bit `j` of the `i`-th eight bits, for every `i` and `j` (R122, R124). -/
theorem bitsOf_pack (v : Bits) (h : v.length % 8 = 0) : bitsOf (pack v) = v := by
  have hlen : (bitsOf (pack v)).length = v.length := by
    rw [bitsOf_length, pack_length]
    omega
  refine List.ext_getElem hlen fun k hk hk' => ?_
  have hj : k % 8 < 8 := Nat.mod_lt k (by decide)
  have hsplit : (bitsOf (pack v)).getD (8 * (k / 8) + k % 8) false = v.getD (8 * (k / 8) + k % 8) false := by
    rw [bitsOf_getD _ _ _ hj, pack_getD v _ (by omega), groupByte_getLsbD _ _ (by simp; omega) hj]
    simp [List.getD_eq_getElem?_getD, List.getElem?_take_of_lt hj]
  rwa [Nat.div_add_mod, List.getD_eq_getElem _ false hk, List.getD_eq_getElem _ false hk'] at hsplit

/-- The bytes of a packed sequence by the weights of their bits (R124). -/
theorem pack_getD_toNat (v : Bits) (h : v.length % 8 = 0) (i : Nat) (hi : 8 * i < v.length) :
    ((pack v).getD i 0).toNat =
      ((List.range 8).map fun j => (v.getD (8 * i + j) false).toNat * 2 ^ (7 - j)).sum := by
  have hg : ((v.drop (8 * i)).take 8).length = 8 := by simp; omega
  rw [pack_getD v i (by omega), groupByte_toNat _ hg, bitsValue_eq_sum, hg]
  refine congrArg List.sum (List.map_congr_left fun j hj => ?_)
  simp [List.getD_eq_getElem?_getD, List.getElem?_take_of_lt (List.mem_range.mp hj)]

end Sys2Proof.Machine

namespace Sys2Proof.Proofs

open Sys2Proof.Machine

/-- Settles O27: both inverses, the length of a packed sequence and the weights of its bytes. -/
theorem packInvertsBits : Obligations.PackInvertsBits := by
  refine ⟨pack_bitsOf, fun v hv => ⟨bitsOf_pack v hv, ?length, pack_getD_toNat v hv⟩⟩
  case length =>
    rw [pack_length]
    omega

end Sys2Proof.Proofs

/-! The algebra of `xorv` (43_bitops.md R120) and the operation `XORV` (R121). -/

namespace Sys2Proof.Machine

/-- Exchanging the operands leaves every byte, read by index, the same; so the tie rule of R120 is not observable. -/
theorem xorv_comm (a b : Bytes) : xorv a b = xorv b a := by
  refine List.ext_getElem? fun i => ?_
  rw [xorv_getElem?, xorv_getElem?]
  cases a[i]? <;> cases b[i]? <;> simp [BitVec.xor_comm]

theorem xorv_nil (a : Bytes) : xorv a [] = a := by
  refine List.ext_getElem? fun i => ?_
  rw [xorv_getElem?]
  cases a[i]? <;> rfl

theorem xorv_self (a : Bytes) : xorv a a = List.replicate a.length 0x00 := by
  refine List.ext_getElem? fun i => ?_
  rw [xorv_getElem?, List.getElem?_replicate]
  by_cases hi : i < a.length <;> simp [hi]

/-- Past the end of `b` a byte of `xorv a b` is the byte of `a` (R120: the longer operand's tail is copied). -/
theorem xorv_getD_of_right_le (a b : Bytes) (i : Nat) (h : b.length ≤ i) : (xorv a b).getD i 0 = a.getD i 0 := by
  
  rw [xorv_getD, List.getD_eq_default _ _ h]
  exact BitVec.xor_zero

/-- Pseudocode that gives a value without a request completes with it, in every state (60_exceptions.md R195). -/
theorem exec_of_runOf_ok {i : Instr} {s : State} {v : Bytes} (h : runOf i s = .ok v) :
    exec i s = .next (Claims.done s v []) := by
  rw [exec_eq, h]
  rfl

end Sys2Proof.Machine

namespace Sys2Proof.Proofs

open Sys2Proof.Machine

/-- Settles O25: `XORV` completes with `xorv` of the operands, whose bytes and symmetry are those of R120. -/
theorem xorvResult : Obligations.XorvResult := by
  intro s
  refine ⟨xorv s.opa s.opb, exec_of_runOf_ok rfl, xorv_length s.opa s.opb, ?common, ?tailA, ?tailB, ?empty, ?equal,
    ?swapped⟩
  case common => exact fun i _ _ => xorv_getD s.opa s.opb i
  case tailA => exact fun i hb _ => xorv_getD_of_right_le s.opa s.opb i hb
  case tailB =>
    intro i ha _
    rw [xorv_comm]
    exact xorv_getD_of_right_le s.opb s.opa i ha
  case empty =>
    intro hb
    rw [hb, xorv_nil]
  case equal =>
    intro hab
    rw [hab, xorv_self]
  case swapped =>
    rw [xorv_comm]
    exact exec_of_runOf_ok rfl

end Sys2Proof.Proofs

/-! The value of a big-endian byte string, its leading bit, and the time encoding (44_orchestrator.md R130, R132). -/

namespace Sys2Proof.Machine

open Sys2Proof.Claims

theorem bigEndian_concat (b : Bytes) (x : Byte) : bigEndian (b ++ [x]) = 256 * bigEndian b + x.toNat := by
  simp [bigEndian]

/-- The first byte fixes the value up to what the bytes after it can express. -/
theorem bigEndian_cons_bounds (x : Byte) (r : Bytes) :
    x.toNat * 256 ^ r.length ≤ bigEndian (x :: r) ∧ bigEndian (x :: r) < (x.toNat + 1) * 256 ^ r.length := by
  induction r using List.reverseRecOn with
  | nil => simp [bigEndian]
  | append_singleton r y ih =>
    have hy : y.toNat < 256 := y.isLt
    rw [← List.cons_append, bigEndian_concat, List.length_append, List.length_singleton, pow_succ, ← mul_assoc,
      ← mul_assoc]
    omega

/-- A leading bit 0 is a matter of the value and the length alone: R130's `T < 2^(8*n - 1)`. -/
theorem leadingZero_iff (b : Bytes) : LeadingZero b ↔ 1 ≤ b.length ∧ bigEndian b < 2 ^ (8 * b.length - 1) := by
  cases b with
  | nil => simp [LeadingZero]
  | cons x r =>
    obtain ⟨hlow, hhigh⟩ := bigEndian_cons_bounds x r
    have hpow : 2 ^ (8 * (x :: r).length - 1) = 128 * 256 ^ r.length := by
      rw [show 8 * (x :: r).length - 1 = 7 + 8 * r.length by simp; omega, pow_add, pow_mul]
      norm_num
    have hfirst : LeadingZero (x :: r) ↔ x.toNat < 128 := by simp [LeadingZero]
    rw [hfirst, hpow]
    constructor
    · intro hx
      have hle : (x.toNat + 1) * 256 ^ r.length ≤ 128 * 256 ^ r.length := Nat.mul_le_mul_right _ hx
      exact ⟨by simp, by omega⟩
    · rintro ⟨-, hlt⟩
      exact Nat.lt_of_mul_lt_mul_right (hlow.trans_lt hlt)

/-- The `n` low-order bytes of `t`, most significant first, have the value `t` modulo `256^n`. -/
theorem bigEndian_lowBytes (n t : Nat) :
    bigEndian ((List.range n).map fun i => BitVec.ofNat 8 (t / 2 ^ (8 * (n - 1 - i)))) = t % 256 ^ n := by
  induction n generalizing t with
  | zero => simp [bigEndian, Nat.mod_one]
  | succ n ih =>
    have hinit : (List.range n).map (fun i => BitVec.ofNat 8 (t / 2 ^ (8 * (n + 1 - 1 - i)))) =
        (List.range n).map fun i => BitVec.ofNat 8 (t / 256 / 2 ^ (8 * (n - 1 - i))) := by
      refine List.map_congr_left fun i hi => ?_
      have hi : i < n := List.mem_range.mp hi
      rw [show 8 * (n + 1 - 1 - i) = 8 + 8 * (n - 1 - i) by omega, pow_add, ← Nat.div_div_eq_div_mul]
      rfl
    have hlast : (BitVec.ofNat 8 (t / 2 ^ (8 * (n + 1 - 1 - n)))).toNat = t % 256 := by simp
    rw [List.range_succ, List.map_append, List.map_singleton, bigEndian_concat, hinit, ih, hlast, pow_succ',
      Nat.mod_mul, Nat.add_comm]

theorem timeLen_le_iff {t n : Nat} (ht : t < 2 ^ 63) (hn : 1 ≤ n) : timeLen t ≤ n ↔ t < 2 ^ (8 * n - 1) := by
  obtain ⟨-, -, hfits, hleast⟩ := timeLen_spec ht
  constructor
  · intro hle
    exact hfits.trans_le (Nat.pow_le_pow_right (by omega) (by omega))
  · intro hlt
    by_contra hgt
    have := hleast n hn (by omega)
    omega

theorem bigEndian_timeBytes {t : Nat} (ht : t < 2 ^ 63) : bigEndian (timeBytes t) = t := by
  obtain ⟨-, -, hfits, -⟩ := timeLen_spec ht
  rw [timeBytes, bigEndian_lowBytes]
  refine Nat.mod_eq_of_lt (hfits.trans_le ?_)
  rw [show 256 = 2 ^ 8 from rfl, ← pow_mul]
  exact Nat.pow_le_pow_right (by omega) (by omega)

/-- On the port's range `timeBytes` gives the shortest encoding of R130. -/
theorem timeBytes_isTimeEncoding {t : Nat} (ht : t < 2 ^ 63) : IsTimeEncoding (timeBytes t) t := by
  obtain ⟨hpos, -, hfits, -⟩ := timeLen_spec ht
  have hvalue := bigEndian_timeBytes ht
  refine ⟨(leadingZero_iff _).mpr ?_, hvalue, fun b hb hbt => ?_⟩
  · rw [hvalue, timeBytes_length]
    exact ⟨hpos, hfits⟩
  · obtain ⟨hbpos, hblt⟩ := (leadingZero_iff b).mp hb
    rw [hbt] at hblt
    rw [timeBytes_length]
    exact (timeLen_le_iff ht hbpos).mpr hblt

/-- The times that fill the four bytes they are mixed into (R130, R131). -/
theorem timeLen_eq_four_iff {t : Nat} (ht : t < 2 ^ 63) : timeLen t = 4 ↔ 2 ^ 23 ≤ t ∧ t < 2 ^ 31 := by
  have h3 : timeLen t ≤ 3 ↔ t < 2 ^ 23 := timeLen_le_iff ht (by omega)
  have h4 : timeLen t ≤ 4 ↔ t < 2 ^ 31 := timeLen_le_iff ht (by omega)
  omega

/-- Pseudocode that gives a value completes with it, its requests on record, in every state (60_exceptions.md R195). -/
theorem exec_of_runOf_out_ok {i : Instr} {s : State} {v : Bytes} (h : (runOf i s).out = .ok v) :
    exec i s = .next (done s v (runOf i s).reqs) := by
  rw [exec_eq, finish_of_ok s h]
  rfl

/-- R132: `TENC` completes in every state, with the raw encoding and one request, the clock sample. -/
theorem exec_tenc (s : State) : exec .tenc s = .next (done s (timeBytes s.now.toNat) [.sample]) :=
  exec_of_runOf_out_ok (i := .tenc) rfl

end Sys2Proof.Machine

namespace Sys2Proof.Proofs

open Sys2Proof.Machine

/-- Settles O28: `TENC` completes with `timeBytes` of the sampled time, which the 63-bit port keeps below 2^63. -/
theorem tencResult : Obligations.TencResult := by
  intro s
  have ht : s.now.toNat < 2 ^ 63 := s.now.isLt
  obtain ⟨hpos, hle, -, -⟩ := timeLen_spec ht
  refine ⟨timeBytes s.now.toNat, exec_tenc s, timeBytes_isTimeEncoding ht, ?_⟩
  rw [timeBytes_length]
  exact ⟨hpos, hle, timeLen_eq_four_iff ht⟩

end Sys2Proof.Proofs

/-! The two ends of a command (60_exceptions.md R190): a completion (R195) or one error (R196), and nothing else. -/

namespace Sys2Proof.Machine

open Sys2Proof.Claims

/-- R190: the outcome is `s` after a completion, or `s` after one error, whose DES code is 0 unless a `CryptoError`. -/
def CompletesOrRaises (s : State) (o : Host.Outcome State Fault Refusal) : Prop :=
  (∃ v q, o = .next (done s v q)) ∨
  (∃ (c : Cause) (src : Src) (code : Byte) (q : List Request), (c.kind ≠ .cryptoError → code = 0x00) ∧
    o = .next (failed s (c.kind.code ||| (src.code <<< 4)) c.code code q))

/-- The `STATUS` of an error has `VALID` 0, so it is `KIND` with `SRC` above it (R28, R193). -/
theorem statusErr_eq (c : Cause) (src : Src) : statusErr c src = c.kind.code ||| (src.code <<< 4) := by
  simp [statusErr, statusByte]

/-- Only a `CryptoError` carries the DES unit's code (R29, R196). -/
theorem deserrErr_eq_zero {e : Err} (h : e.cause.kind ≠ .cryptoError) : deserrErr e = 0x00 := if_neg h

theorem complete_eq_done (s : State) (v : Bytes) (q : List Request) : s.complete v q = done s v q := rfl

theorem raise_eq_failed (s : State) (e : Err) (q : List Request) :
    s.raise e q = failed s (e.cause.kind.code ||| (e.src.code <<< 4)) e.cause.code (deserrErr e) q := by
  rw [State.raise, statusErr_eq, failed]

theorem raise_completesOrRaises (s : State) (e : Err) (q : List Request) : CompletesOrRaises s (.next (s.raise e q)) :=
  .inr ⟨e.cause, e.src, deserrErr e, q, deserrErr_eq_zero, by rw [raise_eq_failed]⟩

theorem finish_completesOrRaises (s : State) (m : Run Bytes) : CompletesOrRaises s (.next (s.finish m)) := by
  rcases finish_cases s m with ⟨v, _, hend⟩ | ⟨e, _, hend⟩ <;> rw [hend]
  · exact .inl ⟨v, m.reqs, by rw [complete_eq_done]⟩
  · exact raise_completesOrRaises s e m.reqs

/-- Every operation has pseudocode, and its run ends the command. -/
theorem exec_completesOrRaises (i : Instr) (s : State) : CompletesOrRaises s (exec i s) := by
  rw [exec_eq]
  exact finish_completesOrRaises s (runOf i s)

/-- A word that decodes ends as its operation does; a reserved one raises `Illegal` (R71, R74, R75). -/
theorem runWord_completesOrRaises (w : CmdWord) (s : State) : CompletesOrRaises s (runWord w s) := by
  rcases runWord_cases w s with ⟨i, _, hrun⟩ | ⟨e, _, hrun⟩ <;> rw [hrun]
  · exact finish_completesOrRaises s (runOf i s)
  · exact raise_completesOrRaises s _ _

end Sys2Proof.Machine

namespace Sys2Proof.Proofs

open Sys2Proof.Machine

/-- Settles O11: an operation's run ends in one of the two ways, and the step carries out the command word, which either
runs an operation or raises. -/
theorem everyCommandCompletesOrRaises : Obligations.EveryCommandCompletesOrRaises := by
  refine ⟨exec_completesOrRaises, ?_⟩
  intro s w rest hinbox
  have hstep : step s = runWord w { s with inbox := rest } := step_cons hinbox
  rw [hstep]
  exact runWord_completesOrRaises w _

end Sys2Proof.Proofs

/-! Decoding and encoding are inverse to each other on the well-formed operations (30_encoding.md R71 to R73). -/

namespace Sys2Proof

/-- R71 on the words R79 gives: an operation with an encoding is read back from it. -/
theorem decode_encode {i : Instr} (h : i.wellFormed = true) : decode (encode i) = .ok i := by
  simp only [decode, encode, opField_wordOf, argField_wordOf]
  cases i with
  | normid sel => cases sel <;> rfl
  | xlatc start =>
    have hstart : start ≠ 0 := by simpa [Instr.wellFormed] using h
    exact if_neg hstart
  | _ => rfl

theorem decodeBare_eq_ok {i j : Instr} {arg : BitVec 8} (h : decodeBare i arg = .ok j) : arg = 0 ∧ j = i := by
  unfold decodeBare at h
  split at h <;> cases h
  exact ⟨‹_›, rfl⟩

theorem decodeNormid_eq_ok {j : Instr} {arg : BitVec 8} (h : decodeNormid arg = .ok j) :
    ∃ sel, j = .normid sel ∧ arg = argOf (.normid sel) := by
  unfold decodeNormid at h
  split at h
  · cases h; exact ⟨.uid, rfl, ‹_›⟩
  · split at h <;> cases h
    exact ⟨.app, rfl, ‹_›⟩

theorem decodeXlatc_eq_ok {j : Instr} {arg : BitVec 8} (h : decodeXlatc arg = .ok j) : arg ≠ 0 ∧ j = .xlatc arg := by
  unfold decodeXlatc at h
  split at h <;> cases h
  exact ⟨‹_›, rfl⟩

/-- The row of R72 and R73 that a decoded operation stands for: the word's two fields, and nothing reserved. -/
def MatchesFields (w : CmdWord) (i : Instr) : Prop :=
  (opField w).toNat = (opOf i).toNat ∧ argField w = argOf i ∧ i.wellFormed = true

/-- A word that the decoder gives to an operation without operand has the fields of that operation's row. -/
theorem matchesFields_of_decodeBare {w : CmdWord} {i j : Instr} (h : decodeBare i (argField w) = .ok j)
    (hrow : argOf i = 0 ∧ i.wellFormed = true) (hop : (opField w).toNat = (opOf i).toNat) : MatchesFields w j := by
  obtain ⟨harg, rfl⟩ := decodeBare_eq_ok h
  exact ⟨hop, harg.trans hrow.1.symm, hrow.2⟩

theorem matchesFields_of_decode {w : CmdWord} {i : Instr} (h : decode w = .ok i) : MatchesFields w i := by
  unfold decode at h
  split at h
  case h_1 hop =>
    obtain ⟨sel, rfl, harg⟩ := decodeNormid_eq_ok h
    exact ⟨hop, harg, rfl⟩
  case h_9 hop => cases h; exact ⟨hop, rfl, rfl⟩
  case h_11 hop =>
    obtain ⟨harg, rfl⟩ := decodeXlatc_eq_ok h
    exact ⟨hop, rfl, bne_iff_ne.mpr harg⟩
  case h_14 => cases h
  all_goals next hop => exact matchesFields_of_decodeBare h ⟨rfl, rfl⟩ hop

theorem encode_of_decode {w : CmdWord} {i : Instr} (h : decode w = .ok i) : encode i = w := by
  obtain ⟨hop, harg, -⟩ := matchesFields_of_decode h
  rw [encode, ← harg, ← BitVec.eq_of_toNat_eq hop, wordOf_fields]

theorem wellFormed_of_decode {w : CmdWord} {i : Instr} (h : decode w = .ok i) : i.wellFormed = true := by
  obtain ⟨-, -, hwf⟩ := matchesFields_of_decode h
  exact hwf

end Sys2Proof

namespace Sys2Proof.Proofs

/-- Settles O1: the encoder puts the code and the operand where the decoder looks for them. -/
theorem decodeOfEncode : Obligations.DecodeOfEncode := fun _ => decode_encode

/-- Settles O2: a decoded word has both fields of its operation's row, and a word is its two fields. -/
theorem encodeOfDecode : Obligations.EncodeOfDecode :=
  fun _ _ h => ⟨encode_of_decode h, wellFormed_of_decode h⟩

/-- Settles O4: each of the words is the encoding of its operation, so it decodes to it. -/
theorem specWordsDecode : Obligations.SpecWordsDecode :=
  ⟨decode_encode (i := .normid .uid) rfl, decode_encode (i := .normid .app) rfl, decode_encode (i := .deckey) rfl,
    decode_encode (i := .encr) rfl, decode_encode (i := .xorv) rfl, decode_encode (i := .perm 3) rfl,
    decode_encode (i := .tcode) rfl, decode_encode (i := .xlatc 31) rfl, decode_encode (i := .gen) rfl⟩

end Sys2Proof.Proofs

/-! With which errors each operation can end (60_exceptions.md R192 to R194): the causes of its row, the registers that
`STATUS.SRC` names, and where a DES code comes from. -/

namespace Sys2Proof.Machine

open Sys2Proof.Config

/-- The registers that an error of a cause can name in `STATUS.SRC` (10_state.md R28, 60_exceptions.md R193). -/
def Cause.sources : Cause → List Src
  | .idAbsent | .idEmpty | .idTooLong | .unmappableChar => [.uid, .app]
  | .keyAbsent | .keyLength | .keyNotHex => [.khx]
  | .operandAbsent => [.uid]
  | .keyRejected | .encryptFailed | .tcInputLen | .permInputLen | .permRound | .padUidLen | .reservedOpcode
  | .reservedArg | .operandLength => [.none]

/-- The unit answers some request with this code of failure (42_block_cipher.md R110, R111). -/
def FailsWith (d : DesUnit) (code : Byte) : Prop :=
  (∃ k, desKs d k = .fail code) ∨ ∃ k b, desE d k b = .fail code

/-- An error with one of the causes `cs`, about a register of that cause, whose kind is `CryptoError` only if the unit
`d` failed with its code. -/
structure Explained (d : DesUnit) (cs : List Cause) (e : Err) : Prop where
  cause : e.cause ∈ cs
  source : e.src ∈ e.cause.sources
  unit : e.cause.kind = .cryptoError → FailsWith d e.code

/-- Every error the run can end with is explained by the causes `cs` and the unit `d`. -/
def Run.RaisesOnly {α : Type} (d : DesUnit) (cs : List Cause) (m : Run α) : Prop :=
  ∀ e, m.out = .error e → Explained d cs e

section

variable {α β : Type} {d : DesUnit} {cs : List Cause}

theorem raisesOnly_of_out_ok {m : Run α} {v : α} (h : m.out = .ok v) : m.RaisesOnly d cs := by
  intro e he
  simp [h] at he

theorem raisesOnly_ok (v : α) : (Run.ok v).RaisesOnly d cs := raisesOnly_of_out_ok rfl

/-- Of two runs in sequence the second matters only where the first gave its value. -/
theorem Run.RaisesOnly.bind {m : Run α} {f : α → Run β} (hm : m.RaisesOnly d cs)
    (hf : ∀ v, m.out = .ok v → (f v).RaisesOnly d cs) : (m.bind f).RaisesOnly d cs := by
  intro e he
  rcases Run.bind_out_error he with he | ⟨v, hv, he⟩
  · exact hm e he
  · exact hf v hv e he

theorem raisesOnly_needLength {c : Cause} (n : Nat) (b : Bytes) (hc : c ∈ cs) (hsrc : .none ∈ c.sources)
    (hkind : c.kind ≠ .cryptoError) : (needLength c n b).RaisesOnly d cs := by
  intro e he
  obtain ⟨rfl, -⟩ := needLength_out_error he
  exact ⟨hc, hsrc, fun h => absurd h hkind⟩

theorem raisesOnly_needUid (t : Option Text) (hc : .operandAbsent ∈ cs) : (needUid t).RaisesOnly d cs := by
  cases t with
  | some t => exact raisesOnly_ok t
  | none =>
    intro e he
    cases he
    exact ⟨hc, by decide, by simp [Err.about, Cause.kind]⟩

/-- A function's causes become errors about one register, so it is enough to look at the causes. -/
theorem raisesOnly_lift {tag : Cause → Err} {x : Except Cause α}
    (h : ∀ c, x = .error c → Explained d cs (tag c)) : (Run.lift tag x).RaisesOnly d cs := by
  intro e he
  obtain ⟨c, hc, rfl⟩ := Run.lift_out_error he
  exact h c hc

theorem raisesOnly_identifier {src : Src} {ext : List (CharCode × Byte)} {raw : Option Text}
    (hsrc : src ∈ [Src.uid, .app]) (hcs : [.idAbsent, .idEmpty, .idTooLong, .unmappableChar] ⊆ cs) :
    (Run.lift (.about src) (normalizeIdentifier ext raw)).RaisesOnly d cs := by
  refine raisesOnly_lift fun c hc => ?_
  have hrow : ∀ c ∈ [Cause.idAbsent, .idEmpty, .idTooLong, .unmappableChar],
      c.sources = [.uid, .app] ∧ c.kind ≠ .cryptoError := by decide
  have hmem := normalizeIdentifier_error hc
  obtain ⟨hsources, hkind⟩ := hrow c hmem
  exact ⟨hcs hmem, hsources ▸ hsrc, fun h => absurd h hkind⟩

theorem raisesOnly_keyText {raw : Option Text} (hcs : [.keyAbsent, .keyLength, .keyNotHex] ⊆ cs) :
    (Run.lift (.about .khx) (decodeKeyBytes raw)).RaisesOnly d cs := by
  refine raisesOnly_lift fun c hc => ?_
  have hrow : ∀ c ∈ [Cause.keyAbsent, .keyLength, .keyNotHex], .khx ∈ c.sources ∧ c.kind ≠ .cryptoError := by decide
  have hmem := decodeKeyBytes_error hc
  obtain ⟨hsource, hkind⟩ := hrow c hmem
  exact ⟨hcs hmem, hsource, fun h => absurd h hkind⟩

theorem raisesOnly_padding {ext : List (CharCode × Byte)} {t : Text} (hcs : [.unmappableChar, .padUidLen] ⊆ cs) :
    (Run.lift padErr (tcPad ext t)).RaisesOnly d cs := by
  refine raisesOnly_lift fun c hc => ?_
  rcases padErr_cases hc with he | he <;> rw [he]
  · exact ⟨hcs (by simp [Err.about]), by decide, fun h => nomatch h⟩
  · exact ⟨hcs (by simp [Err.plain]), by decide, fun h => nomatch h⟩

theorem raisesOnly_permute {x : Bytes} {i : Nat} (hcs : [.permInputLen, .permRound] ⊆ cs) :
    (Run.lift .plain (permute x i)).RaisesOnly d cs := by
  refine raisesOnly_lift fun c hc => ?_
  rcases permute_cases x i with ⟨-, h⟩ | ⟨-, -, h⟩ | ⟨_, -, -, h⟩ <;> rw [h] at hc <;> cases hc
  · exact ⟨hcs (by simp [Err.plain]), by decide, fun h => nomatch h⟩
  · exact ⟨hcs (by simp [Err.plain]), by decide, fun h => nomatch h⟩

theorem raisesOnly_bindKey (k : Bytes) (hc : .keyRejected ∈ cs) : (bindKey d k).RaisesOnly d cs := by
  intro e he
  obtain ⟨hcause, hsrc, hfail⟩ := bindKey_out_error he
  exact ⟨hcause ▸ hc, by rw [hcause, hsrc]; decide, fun _ => .inl ⟨k, hfail⟩⟩

theorem raisesOnly_encrypt (k b : Bytes) (hc : .encryptFailed ∈ cs) : (encrypt d k b).RaisesOnly d cs := by
  intro e he
  obtain ⟨hcause, hsrc, hfail⟩ := encrypt_out_error he
  exact ⟨hcause ▸ hc, by rw [hcause, hsrc]; decide, fun _ => .inr ⟨k, b, hfail⟩⟩

/-- Rounds 1 to 6 raise nothing of the permutation's: its input has two bytes and its round a table (R156). -/
theorem raisesOnly_tcRounds {k padb : Bytes} (hc : .encryptFailed ∈ cs) : ∀ (is : List Nat) (lr : Bytes × Bytes),
    (∀ i ∈ is, 1 ≤ i ∧ i ≤ 6) → lr.1.length = 2 → lr.2.length = 2 → (tcRounds d k padb is lr).RaisesOnly d cs
  | [], lr, _, _, _ => raisesOnly_ok lr
  | i :: is, lr, hi, hl, hr => by
    obtain ⟨hlow, hhigh⟩ := hi i (by simp)
    refine Run.RaisesOnly.bind (fun e he => ?_) fun lr' hlr' => ?_
    · exact raisesOnly_encrypt _ _ hc e (tcRound_out_error hlow hhigh hl he)
    · obtain ⟨hleft, hright, -⟩ := tcRound_out_ok hlr'
      exact raisesOnly_tcRounds hc is lr' (fun j hj => hi j (by simp [hj])) (hleft ▸ hr) hright

theorem raisesOnly_timeCoder {p : Platform} {v k : Bytes} {t : Text} (hd : p.des = d)
    (hlen : .tcInputLen ∈ cs ∨ v.length = 4)
    (hpad : [.unmappableChar, .padUidLen] ⊆ cs ∨ ∃ padb, tcPad p.cpExt t = .ok padb) (hc : .encryptFailed ∈ cs) :
    (timeCoder p v t k).RaisesOnly d cs := by
  subst hd
  refine .bind ?_ fun _ hv => .bind ?_ fun padb _ => .bind ?_ fun lr _ => raisesOnly_ok _
  · rcases hlen with hin | hv
    · exact raisesOnly_needLength _ _ hin (by decide) (by decide)
    · exact raisesOnly_of_out_ok (congrArg Run.out (needLength_of_eq hv))
  · rcases hpad with hin | ⟨padb, hok⟩
    · exact raisesOnly_padding hin
    · rw [hok]; exact raisesOnly_ok _
  · have hv : v.length = 4 := needLength_out_ok hv
    exact raisesOnly_tcRounds hc _ _ (by simp) (by simp [halfLen, hv]) (by simp [halfLen, hv])

end

section

variable {cs : List Cause} (p : Platform)

theorem raisesOnly_fourBytes {α : Type} {b : Bytes} {f : Unit → Run α} {d : DesUnit} (hc : .operandLength ∈ cs)
    (hf : (f ()).RaisesOnly d cs) : ((needLength .operandLength resultLen b).bind f).RaisesOnly d cs :=
  (raisesOnly_needLength _ _ hc (by decide) (by decide)).bind fun _ _ => hf

theorem raisesOnly_encr (key opa : Bytes) (hcs : [.keyRejected, .encryptFailed, .operandLength] ⊆ cs) :
    (encrRun p key opa).RaisesOnly p.des cs :=
  .bind (raisesOnly_needLength _ _ (hcs (by simp)) (by decide) (by decide)) fun _ _ =>
  .bind (raisesOnly_needLength _ _ (hcs (by simp)) (by decide) (by decide)) fun _ _ =>
  .bind (raisesOnly_bindKey _ (hcs (by simp))) fun _ _ => raisesOnly_encrypt _ _ (hcs (by simp))

theorem raisesOnly_tcode (key opa : Bytes) (uid : Option Text) (hcs : canRaise .tcode ⊆ cs) :
    (tcodeRun p key uid opa).RaisesOnly p.des cs :=
  .bind (raisesOnly_needLength _ _ (hcs (by simp [canRaise])) (by decide) (by decide)) fun _ _ =>
  .bind (raisesOnly_needUid _ (hcs (by simp [canRaise]))) fun _ _ =>
  .bind (raisesOnly_needLength _ _ (hcs (by simp [canRaise])) (by decide) (by decide)) fun _ hv =>
  .bind (raisesOnly_padding (List.Subset.trans (by simp [canRaise]) hcs)) fun padb hpad =>
  .bind (raisesOnly_bindKey _ (hcs (by simp [canRaise]))) fun _ _ =>
  raisesOnly_timeCoder rfl (.inr (needLength_out_ok hv)) (.inr ⟨padb, Run.lift_out_ok hpad⟩)
    (hcs (by simp [canRaise]))

/-- The causes of a derivation; `TC_INPUT_LEN` is needed only where the mixed time can exceed four bytes. -/
def derivationCauses : List Cause :=
  [.idAbsent, .idEmpty, .idTooLong, .keyAbsent, .keyLength, .keyNotHex, .keyRejected, .encryptFailed, .unmappableChar]

theorem raisesOnly_genSetup (uid app khx : Option Text) (hcs : derivationCauses ⊆ cs) :
    (genSetup p uid app khx).RaisesOnly p.des cs :=
  .bind (raisesOnly_identifier (by simp) (List.Subset.trans (by simp [derivationCauses]) hcs)) fun _ _ =>
  .bind (raisesOnly_identifier (by simp) (List.Subset.trans (by simp [derivationCauses]) hcs)) fun _ _ =>
  .bind (raisesOnly_keyText (List.Subset.trans (by simp [derivationCauses]) hcs)) fun _ _ =>
  .bind (raisesOnly_bindKey _ (hcs (by simp [derivationCauses]))) fun _ _ => raisesOnly_ok _

/-- Result4 has four bytes under `LOW4` (44_orchestrator.md R131). -/
theorem timeMix_low4_length {r3 : Bytes} (h : r3.length = 4) (t : Nat) : (timeMix .low4 r3 t).length = 4 := by
  have hmix := mixedTime_low4_length t
  rw [timeMix, xorv_length, h]
  omega

/-- The padding of a derivation cannot fail, because its user id has passed as an identifier (R135); its input has the
wrong length only under `FAULT`. -/
theorem raisesOnly_generate (now : Time) (uid app khx : Option Text) (hcs : derivationCauses ⊆ cs)
    (hlen : .tcInputLen ∈ cs ∨ p.timeWide = .low4) : (generate p now uid app khx).RaisesOnly p.des cs := by
  have hfail : .encryptFailed ∈ cs := hcs (by simp [derivationCauses])
  refine .bind (raisesOnly_genSetup p uid app khx hcs) fun f hf => ?_
  refine .bind (raisesOnly_encrypt _ _ hfail) fun r1 _ => ?_
  refine .bind (raisesOnly_encrypt _ _ hfail) fun r2 hr2 => ?_
  refine .bind (raisesOnly_of_out_ok (sample_out now)) fun t _ => ?_
  refine .bind (raisesOnly_timeCoder rfl ?_ (.inr ?_) hfail) fun r5 _ => raisesOnly_ok _
  · refine hlen.imp_right fun hlow => ?_
    rw [hlow]
    exact timeMix_low4_length (by simp [encrypt_out_ok hr2, resultLen]) t
  · obtain ⟨huid, -⟩ := genSetup_out_ok hf
    cases uid with
    | none => cases huid
    | some text => exact tcPad_of_normalizeIdentifier p.cpExt huid

end

/-- The table of R194: each well-formed operation ends only with the errors of its row. -/
theorem runOf_raisesOnly {i : Instr} (s : State) (hwf : i.wellFormed = true) :
    (runOf i s).RaisesOnly s.plat.des (canRaise i) := by
  cases i with
  | normid sel => exact raisesOnly_identifier (by cases sel <;> simp [srcOfSel]) (by simp [canRaise])
  | deckey =>
    exact .bind (raisesOnly_keyText (by simp [canRaise])) fun _ _ =>
      .bind (raisesOnly_bindKey _ (by simp [canRaise])) fun _ _ => raisesOnly_ok _
  | encr => exact raisesOnly_encr _ _ _ (by simp [canRaise])
  | xorv => exact raisesOnly_ok _
  | bits => exact raisesOnly_ok _
  | tenc => exact raisesOnly_of_out_ok (v := timeBytes s.now.toNat) rfl
  | tmix =>
    exact raisesOnly_fourBytes (by simp [canRaise])
      (raisesOnly_of_out_ok (v := timeMix s.plat.timeWide s.opa s.now.toNat) rfl)
  | tpad =>
    exact .bind (raisesOnly_needUid _ (by simp [canRaise])) fun _ _ => raisesOnly_padding (by simp [canRaise])
  | perm round => exact raisesOnly_permute (by simp [canRaise])
  | tcode => exact raisesOnly_tcode _ _ _ _ (List.Subset.refl _)
  | xlatc start =>
    have hstart : start ≠ 0 := by simpa [Instr.wellFormed] using hwf
    rw [runOf, xlatcRun, if_neg hstart]
    exact raisesOnly_fourBytes (by simp [canRaise]) (raisesOnly_ok _)
  | xlat => exact raisesOnly_fourBytes (by simp [canRaise]) (raisesOnly_ok _)
  | gen => exact raisesOnly_generate _ _ _ _ _ (by simp [derivationCauses, canRaise]) (.inl (by simp [canRaise]))

theorem Run.RaisesOnly.mono {α : Type} {d : DesUnit} {cs cs' : List Cause} {m : Run α} (hm : m.RaisesOnly d cs)
    (h : cs ⊆ cs') : m.RaisesOnly d cs' :=
  fun e he => ⟨h (hm e he).cause, (hm e he).source, (hm e he).unit⟩

/-- R73 leaves out one operand value only. -/
theorem eq_xlatc_zero_of_not_wellFormed {i : Instr} (h : ¬ i.wellFormed = true) : i = .xlatc 0 := by
  cases i with
  | xlatc start => simpa [Instr.wellFormed] using h
  | _ => exact absurd rfl h

/-- Without an encoding an operation can end with `RESERVED_ARG` as well (log 15). -/
theorem runOf_raisesOnly_any (i : Instr) (s : State) :
    (runOf i s).RaisesOnly s.plat.des (.reservedArg :: canRaise i) := by
  by_cases hwf : i.wellFormed = true
  · exact (runOf_raisesOnly s hwf).mono (List.subset_cons_self _ _)
  · rw [eq_xlatc_zero_of_not_wellFormed hwf]
    intro e he
    cases he
    exact ⟨by simp [Err.plain], by decide, fun h => nomatch h⟩

/-- Every command ends in completion or in one explained error. -/
theorem exec_explained {i : Instr} {s t : State} (hexec : exec i s = .next t) :
    (∃ v, (runOf i s).out = .ok v ∧ t = s.complete v (runOf i s).reqs) ∨
    ∃ e q cs, t = s.raise e q ∧ Explained s.plat.des cs e := by
  rw [exec_eq] at hexec
  cases hexec
  rcases finish_cases s (runOf i s) with ⟨v, hv, hend⟩ | ⟨e, he, hend⟩
  · exact .inl ⟨v, hv, hend⟩
  · exact .inr ⟨e, _, _, hend, runOf_raisesOnly_any i s e he⟩

/-- The same for command words: a reserved word's error is `Illegal`, about no register (R74, R75). -/
theorem runWord_explained {w : CmdWord} {s t : State} (h : runWord w s = .next t) :
    (∃ i v, (runOf i s).out = .ok v ∧ t = s.complete v (runOf i s).reqs) ∨
    ∃ e q cs, t = s.raise e q ∧ Explained s.plat.des cs e := by
  cases hw : decode w with
  | ok i =>
    have hexec : exec i s = .next t := by simpa [runWord, hw] using h
    exact (exec_explained hexec).imp_left fun hdone => ⟨i, hdone⟩
  | error r =>
    rw [runWord_of_error s hw] at h
    cases h
    refine .inr ⟨_, _, [.reservedOpcode, .reservedArg], rfl, ?_⟩
    cases r <;> exact ⟨by simp [Err.plain, causeOfReject], by decide, fun h => nomatch h⟩

/-- The standard DES accepts every key and every block (47_des_reference.md R185). -/
theorem not_failsWith_standard (code : Byte) : ¬ FailsWith .standard code := by
  rintro (⟨_, h⟩ | ⟨_, _, h⟩) <;> cases h

/-- The pairs of R192 and R193 that an error with a possible source leaves in `STATUS` and `CAUSE`. -/
theorem statusErr_pairs (c : Cause) : ∀ src ∈ c.sources,
    (c.kind ≠ .cryptoError →
      (statusErr c src ∈ [0x11#8, 0x21#8] ∧ c.code ∈ [0x01#8, 0x02#8, 0x03#8]) ∨
      (statusErr c src = 0x31 ∧ c.code ∈ [0x04#8, 0x05#8, 0x06#8]) ∨
      (statusErr c src = 0x03 ∧ c.code ∈ [0x30#8, 0x31#8, 0x32#8, 0x33#8]) ∨
      (statusErr c src = 0x04 ∧ c.code ∈ [0x40#8, 0x41#8, 0x42#8]) ∨
      (statusErr c src = 0x14 ∧ c.code ∈ [0x43#8, 0x44#8]) ∨ (statusErr c src = 0x24 ∧ c.code = 0x44)) ∧
    (c.kind = .cryptoError → statusErr c src = 0x02 ∧ c.code ∈ [0x20#8, 0x21#8]) := by
  cases c <;> decide

end Sys2Proof.Machine

namespace Sys2Proof.Proofs

open Sys2Proof.Machine

/-- Settles O12: an operation that does not complete raises an error of its row; under `LOW4` the input of `GEN`'s time
coder has four bytes. -/
theorem raisesOnlyListedCauses : Obligations.RaisesOnlyListedCauses := by
  intro i s t hwf hexec hstatus
  rw [exec_eq] at hexec
  cases hexec
  rcases finish_cases s (runOf i s) with ⟨v, -, hend⟩ | ⟨e, he, hend⟩ <;> rw [hend] at hstatus ⊢
  · exact absurd rfl hstatus
  · refine ⟨⟨e.cause, (runOf_raisesOnly s hwf e he).cause, rfl⟩, ?_⟩
    rintro rfl hlow hcause
    have hexplained := raisesOnly_generate s.plat s.now s.uid s.app s.khx (List.Subset.refl _) (.inr hlow) e he
    have hmem := hexplained.cause
    rw [Cause.code_injective (c := e.cause) (d := .tcInputLen) hcause] at hmem
    simp [derivationCauses] at hmem

/-- Settles O13: a completion leaves the first pair, an error the pair of its cause and source. -/
theorem statusAndCauseAgree : Obligations.StatusAndCauseAgree := by
  intro s w rest t hinbox hstep
  rw [step_cons hinbox] at hstep
  rcases runWord_explained hstep with ⟨i, v, -, rfl⟩ | ⟨e, q, cs, rfl, he⟩
  · exact .inl ⟨rfl, rfl, rfl⟩
  · obtain ⟨hother, hcrypto⟩ := statusErr_pairs e.cause e.src he.source
    simp only [raise_status, raise_cause, raise_deserr]
    by_cases hkind : e.cause.kind = .cryptoError
    · exact .inr (.inr (.inr (.inl (hcrypto hkind))))
    · have hcode : deserrErr e = 0x00 := deserrErr_eq_zero hkind
      rcases hother hkind with h | h | h | h | h | h <;> simp [h, hcode]

/-- Settles O56: a `CryptoError` carries a code with which the unit failed, and the standard DES fails with none. -/
theorem standardDesNeverFails : Obligations.StandardDesNeverFails := by
  intro i s t hdes hexec hkind
  rcases exec_explained hexec with ⟨v, -, rfl⟩ | ⟨e, q, cs, rfl, he⟩
  · exact absurd hkind (show kindField statusDone ≠ 2 by decide)
  · have hcrypto := (kindField_statusErr_eq_two e.cause e.src).mp hkind
    exact not_failsWith_standard e.code (hdes ▸ he.unit hcrypto)

end Sys2Proof.Proofs

/-! What each event does to the whole machine (20_memory.md R57 to R61), the invariant of every reachable state, and the
runs that no refusal ends. -/

namespace Sys2Proof.Machine

open Sys2Proof.Config

section Transactions

theorem ofNumber_number (r : Reg) : Reg.ofNumber r.number = some r := ofNumber_eq_some_iff.mpr rfl

/-- The numbers 0 to 10 are those of the registers (30_encoding.md R76). -/
theorem exists_number_eq {n : Nat} (h : n ≤ 10) : ∃ r : Reg, n = r.number := by
  have hsome : ∀ m ≤ 10, (Reg.ofNumber m).isSome = true := by decide
  obtain ⟨r, hr⟩ := Option.isSome_iff_exists.mp (hsome n h)
  exact ⟨r, ofNumber_eq_some_iff.mp hr⟩

theorem hostRead_of_number (r : Reg) (s : State) :
    hostRead r.number s = .next { s with reply := some (s.readReg r) } := by
  simp [hostRead, ofNumber_number]

theorem hostRead_refused {n : Nat} (h : 11 ≤ n) (s : State) : hostRead n s = .refused (.illFormedRead n) := by
  have hnone : Reg.ofNumber n = none := by
    refine Option.eq_none_iff_forall_ne_some.mpr fun r hr => ?_
    rw [ofNumber_eq_some_iff] at hr
    cases r <;> simp [Reg.number] at hr <;> omega
  simp [hostRead, hnone]

/-- A command word changes neither the platform nor what the host has pending. -/
theorem runWord_frame {w : CmdWord} {s t : State} (h : runWord w s = .next t) :
    t.plat = s.plat ∧ t.inbox = s.inbox := by
  rcases runWord_explained h with ⟨_, _, -, rfl⟩ | ⟨_, _, _, rfl, -⟩
  · exact ⟨rfl, rfl⟩
  · exact ⟨rfl, rfl⟩

/-- A host write that takes effect leaves everything but the operand registers (R57). -/
theorem hostWrite_frame {n : Nat} {v : RegValue} {s t : State} (h : hostWrite n v s = .next t) :
    (t.plat = s.plat ∧ t.inbox = s.inbox) ∧ t.res = s.res ∧ t.status = s.status ∧ t.cause = s.cause ∧
    t.deserr = s.deserr := by
  obtain ⟨r, -, hw⟩ := hostWrite_next h
  rcases writeReg_cases hw with ⟨_, _, _, _, rfl⟩ | ⟨_, _, _, _, rfl⟩ | ⟨_, _, _, _, rfl⟩ | ⟨_, _, _, _, rfl⟩ |
    ⟨_, _, _, _, rfl⟩ | ⟨_, _, _, _, rfl⟩ <;> simp

/-- No transaction changes the platform or what the host has pending (log 1, 7). -/
theorem transact_frame {ev : Event} {s t : State} (h : transact ev s = .next t) :
    t.plat = s.plat ∧ t.inbox = s.inbox := by
  cases ev with
  | wr n v => exact (hostWrite_frame h).1
  | rd n =>
    obtain ⟨_, -, rfl⟩ := hostRead_next h
    exact ⟨rfl, rfl⟩
  | cmd w => exact runWord_frame h
  | reset => cases h; exact ⟨rfl, rfl⟩
  | clock t => cases h; exact ⟨rfl, rfl⟩

/-- What can change an operand register (R25, R57, R220). -/
theorem transact_operands {ev : Event} {s t : State} (h : transact ev s = .next t) :
    SameOperands s t ∨ ev = .reset ∨ ∃ n v, ev = .wr n v := by
  cases ev with
  | wr n v => exact .inr (.inr ⟨n, v, rfl⟩)
  | rd n =>
    obtain ⟨_, -, rfl⟩ := hostRead_next h
    exact .inl ⟨rfl, rfl, rfl, rfl, rfl, rfl⟩
  | cmd w => exact .inl (runWord_sameOperands h)
  | reset => exact .inr (.inl rfl)
  | clock t => cases h; exact .inl ⟨rfl, rfl, rfl, rfl, rfl, rfl⟩

/-- What can change `RES` or a status register (R57, R58, R195, R196, R220). -/
theorem transact_results {ev : Event} {s t : State} (h : transact ev s = .next t) :
    (t.res = s.res ∧ t.status = s.status ∧ t.cause = s.cause ∧ t.deserr = s.deserr) ∨ ev = .reset ∨
    ∃ w, ev = .cmd w := by
  cases ev with
  | wr n v => exact .inl (hostWrite_frame h).2
  | rd n =>
    obtain ⟨_, -, rfl⟩ := hostRead_next h
    exact .inl ⟨rfl, rfl, rfl, rfl⟩
  | cmd w => exact .inr (.inr ⟨w, rfl⟩)
  | reset => exact .inr (.inl rfl)
  | clock t => cases h; exact .inl ⟨rfl, rfl, rfl, rfl⟩

end Transactions

section Invariant

variable {s t : State}

theorem mixedTime_length_le (policy : TimeWidePolicy) (t : Nat) : (mixedTime policy t).length ≤ timeLen t := by
  cases policy with
  | fault => exact (timeBytes_length t).le
  | low4 =>
    simp only [mixedTime]
    split <;> simp

/-- A token is the translation of some Result5 (44_orchestrator.md R134). -/
theorem generate_out_ok {p : Platform} {now : Time} {uid app khx : Option Text} {v : Bytes}
    (h : (generate p now uid app khx).out = .ok v) : ∃ r5, v = translateAll r5 := by
  obtain ⟨_, -, h⟩ := Run.bind_out_ok h
  obtain ⟨_, -, h⟩ := Run.bind_out_ok h
  obtain ⟨_, -, h⟩ := Run.bind_out_ok h
  obtain ⟨_, -, h⟩ := Run.bind_out_ok h
  obtain ⟨r5, -, h⟩ := Run.bind_out_ok h
  cases h
  exact ⟨r5, rfl⟩

/-- `RES_MAX` is enough for every result (10_state.md R24): `BITS` on a full `OPA` needs all of it. -/
theorem runOf_result_length {i : Instr} {v : Bytes} (hcap : s.WithinCapacity) (h : (runOf i s).out = .ok v) :
    v.length ≤ resMax := by
  obtain ⟨-, -, -, hopa, hopb, -, -⟩ := hcap
  simp only [bufMax] at hopa hopb
  have fits {n : Nat} (hn : v.length = n) (hmax : n ≤ 128 := by omega) : v.length ≤ resMax := hn.trans_le hmax
  cases i with
  | normid sel => exact fits (normalizeIdentifier_length _ (Run.lift_out_ok h))
  | deckey =>
    obtain ⟨k, hk, h⟩ := Run.bind_out_ok h
    obtain ⟨_, -, h⟩ := Run.bind_out_ok h
    cases h
    exact fits (decodeKeyBytes_length (Run.lift_out_ok hk))
  | encr =>
    obtain ⟨_, -, h⟩ := Run.bind_out_ok h
    obtain ⟨_, -, h⟩ := Run.bind_out_ok h
    obtain ⟨_, -, h⟩ := Run.bind_out_ok h
    exact fits (encrypt_out_ok h)
  | xorv => cases h; exact fits (xorv_length _ _)
  | bits => cases h; exact fits ((List.length_map _).trans (bitsOf_length _))
  | tenc =>
    cases h
    obtain ⟨-, hlen, -, -⟩ := timeLen_spec s.now.isLt
    exact fits (timeBytes_length _)
  | tmix =>
    obtain ⟨_, -, h⟩ := Run.bind_out_ok h
    cases h
    obtain ⟨-, hlen, -, -⟩ := timeLen_spec s.now.isLt
    have hmix := mixedTime_length_le s.plat.timeWide s.now.toNat
    exact fits (xorv_length _ _)
  | tpad =>
    obtain ⟨_, -, h⟩ := Run.bind_out_ok h
    exact fits (tcPad_length _ (Run.lift_out_ok h))
  | perm round => exact fits (permute_length (Run.lift_out_ok h))
  | tcode =>
    obtain ⟨_, -, h⟩ := Run.bind_out_ok h
    obtain ⟨_, -, h⟩ := Run.bind_out_ok h
    obtain ⟨_, -, h⟩ := Run.bind_out_ok h
    obtain ⟨_, -, h⟩ := Run.bind_out_ok h
    obtain ⟨_, -, h⟩ := Run.bind_out_ok h
    obtain ⟨-, hlen, -⟩ := timeCoder_out_ok h
    exact fits hlen
  | xlatc start =>
    simp only [runOf, xlatcRun] at h
    split at h
    · cases h
    · obtain ⟨_, -, h⟩ := Run.bind_out_ok h
      cases h
      exact fits (n := 1) rfl
  | xlat =>
    obtain ⟨_, -, h⟩ := Run.bind_out_ok h
    cases h
    exact fits (translateAll_length _)
  | gen =>
    obtain ⟨_, rfl⟩ := generate_out_ok h
    exact fits (translateAll_length _)

/-- A completion leaves a result within its capacity and the status of R195. -/
theorem complete_inv {v : Bytes} {q : List Request} (h : s.Inv) (hv : v.length ≤ resMax) : (s.complete v q).Inv := by
  obtain ⟨⟨huid, happ, hkhx, hopa, hopb, hkey, -⟩, -, -⟩ := h
  refine ⟨⟨huid, happ, hkhx, hopa, hopb, hkey, hv⟩, ⟨?_, ?_, ?_, ?_, ?_⟩, rfl⟩
  · exact show statusDone ∈ legalStatus by decide
  · exact fun hvalid => absurd hvalid (show validField statusDone ≠ false by decide)
  · exact fun _ => rfl
  · exact fun hkind => absurd (show kindField statusDone = 0 by decide) hkind
  · exact fun _ => rfl

theorem statusErr_legal (c : Cause) : ∀ src ∈ c.sources, statusErr c src ∈ legalStatus := by
  cases c <;> decide

theorem kindField_statusErr_ne_zero (c : Cause) (src : Src) : kindField (statusErr c src) ≠ 0 := by
  intro h
  have hkind := (statusErr_fields c src).1
  rw [h] at hkind
  cases c <;> exact absurd hkind (by decide)

/-- An error about a register that its cause can name leaves an empty result and coherent status registers (R196). -/
theorem raise_inv {e : Err} {q : List Request} (h : s.Inv) (hsource : e.src ∈ e.cause.sources) :
    (s.raise e q).Inv := by
  obtain ⟨⟨huid, happ, hkhx, hopa, hopb, hkey, -⟩, -, -⟩ := h
  obtain ⟨hkind, hvalid, -, -⟩ := statusErr_fields e.cause e.src
  refine ⟨⟨huid, happ, hkhx, hopa, hopb, hkey, Nat.zero_le _⟩, ⟨?_, ?_, ?_, ?_, ?_⟩, rfl⟩
  · exact statusErr_legal e.cause e.src hsource
  · exact fun _ => rfl
  · exact fun hzero => absurd hzero (kindField_statusErr_ne_zero e.cause e.src)
  · exact fun _ => ⟨e.cause, rfl, hkind, hvalid⟩
  · exact fun htwo => deserrErr_eq_zero fun hcrypto => htwo ((kindField_statusErr_eq_two _ _).mpr hcrypto)

theorem runWord_inv {w : CmdWord} (h : s.Inv) (hrun : runWord w s = .next t) : t.Inv := by
  rcases runWord_explained hrun with ⟨i, v, hv, rfl⟩ | ⟨e, q, cs, rfl, he⟩
  · exact complete_inv h (runOf_result_length h.1 hv)
  · exact raise_inv h he.source

/-- A write that takes effect fits its register and leaves the status registers and scratch (R57). -/
theorem hostWrite_inv {n : Nat} {v : RegValue} (h : s.Inv) (hw : hostWrite n v s = .next t) : t.Inv := by
  obtain ⟨r, -, hw⟩ := hostWrite_next hw
  obtain ⟨⟨huid, happ, hkhx, hopa, hopb, hkey, hres⟩, hcoherent, hscratch⟩ := h
  rcases writeReg_cases hw with ⟨x, -, -, hx, rfl⟩ | ⟨x, -, -, hx, rfl⟩ | ⟨x, -, -, hx, rfl⟩ | ⟨b, -, -, hb, rfl⟩ |
    ⟨b, -, -, hb, rfl⟩ | ⟨b, -, -, hb, rfl⟩
  · exact ⟨⟨(textFits_iff x).mp hx, happ, hkhx, hopa, hopb, hkey, hres⟩, hcoherent, hscratch⟩
  · exact ⟨⟨huid, (textFits_iff x).mp hx, hkhx, hopa, hopb, hkey, hres⟩, hcoherent, hscratch⟩
  · exact ⟨⟨huid, happ, (textFits_iff x).mp hx, hopa, hopb, hkey, hres⟩, hcoherent, hscratch⟩
  · exact ⟨⟨huid, happ, hkhx, (bytesFit_iff b).mp hb, hopb, hkey, hres⟩, hcoherent, hscratch⟩
  · exact ⟨⟨huid, happ, hkhx, hopa, (bytesFit_iff b).mp hb, hkey, hres⟩, hcoherent, hscratch⟩
  · exact ⟨⟨huid, happ, hkhx, hopa, hopb, (bytesFit_iff b).mp hb, hres⟩, hcoherent, hscratch⟩

/-- The reset values meet the invariant, whatever stands outside PTG (R36, R220). -/
theorem applyReset_inv (s : State) : (applyReset s).Inv := by
  refine ⟨⟨?_, ?_, ?_, Nat.zero_le _, Nat.zero_le _, Nat.zero_le _, Nat.zero_le _⟩, ⟨?_, ?_, ?_, ?_, ?_⟩, rfl⟩
  · exact fun x hx => nomatch hx
  · exact fun x hx => nomatch hx
  · exact fun x hx => nomatch hx
  · exact show (0x00 : Byte) ∈ legalStatus by decide
  · exact fun _ => rfl
  · exact fun _ => rfl
  · exact fun hkind => absurd (show kindField 0x00 = 0 by decide) hkind
  · exact fun _ => rfl

/-- Every transaction keeps the invariant: it speaks neither of the reply nor of the port nor of what is pending. -/
theorem transact_inv {ev : Event} (h : s.Inv) (hev : transact ev s = .next t) : t.Inv := by
  cases ev with
  | wr n v => exact hostWrite_inv h hev
  | rd n =>
    obtain ⟨_, -, rfl⟩ := hostRead_next hev
    exact h
  | cmd w => exact runWord_inv h hev
  | reset => cases hev; exact applyReset_inv s
  | clock t => cases hev; exact h

theorem step_inv (h : s.Inv) (hstep : step s = .next t) : t.Inv := by
  rcases step_cases hstep with ⟨-, rfl⟩ | ⟨ev, rest, -, hev⟩
  · exact h
  · exact transact_inv (s := { s with inbox := rest }) h hev

/-- A host that keeps the protocol (R57, R58) is answered: every other transaction always is (R59, R190). -/
theorem exists_transact_of_wellFormed {ev : Event} (s : State) (h : ev.wellFormed = true) :
    ∃ t, transact ev s = .next t := by
  cases ev with
  | wr n v =>
    rcases (wellFormed_wr_iff n v).mp h with ⟨hn, x, rfl, hx⟩ | ⟨hlow, hhigh, b, rfl, hb⟩
    · obtain ⟨huid, happ, hkhx⟩ := hostWrite_text s ((textFits_iff x).mpr hx)
      interval_cases n
      exacts [⟨_, huid⟩, ⟨_, happ⟩, ⟨_, hkhx⟩]
    · obtain ⟨hopa, hopb, hkey⟩ := hostWrite_bytes s ((bytesFit_iff b).mpr hb)
      interval_cases n
      exacts [⟨_, hopa⟩, ⟨_, hopb⟩, ⟨_, hkey⟩]
  | rd n =>
    obtain ⟨r, rfl⟩ := exists_number_eq (of_decide_eq_true h)
    exact ⟨_, hostRead_of_number r s⟩
  | cmd w =>
    rcases runWord_cases w s with ⟨_, -, hrun⟩ | ⟨_, -, hrun⟩
    · exact ⟨_, hrun⟩
    · exact ⟨_, hrun⟩
  | reset => exact ⟨_, rfl⟩
  | clock t => exact ⟨_, rfl⟩

/-- With well-formed transactions pending there is a next state. -/
theorem exists_step_of_wellFormed (h : ∀ ev ∈ s.inbox, ev.wellFormed = true) : ∃ t, step s = .next t := by
  cases hinbox : s.inbox with
  | nil => exact ⟨s, step_nil hinbox⟩
  | cons ev rest =>
    rw [step_cons hinbox]
    exact exists_transact_of_wellFormed _ (h ev (by simp [hinbox]))

/-- A step adds nothing to what the host has pending (log 1). -/
theorem step_inbox_subset (hstep : step s = .next t) : t.inbox ⊆ s.inbox := by
  rcases step_cases hstep with ⟨-, rfl⟩ | ⟨ev, rest, hinbox, hev⟩
  · exact List.Subset.refl _
  · obtain ⟨-, hrest⟩ := transact_frame hev
    rw [hrest, hinbox]
    exact List.subset_cons_self ev rest

end Invariant

end Sys2Proof.Machine

namespace Sys2Proof.Proofs

open Sys2Proof.Machine

/-- Settles O5: the step carries out the word, and a word that decodes is its operation. -/
theorem stepRunsDecodedCommand : Obligations.StepRunsDecodedCommand := by
  intro s w rest i hinbox hw
  rw [step_cons hinbox, transact, runWord, hw]

/-- Settles O6: these are the values `State.reset` writes. -/
theorem resetRegisterValues : Obligations.ResetRegisterValues :=
  ⟨rfl, rfl, rfl, rfl, rfl, rfl, rfl, rfl, rfl, rfl, rfl⟩

/-- Settles O7: the step carries out the reset. -/
theorem resetEventClearsRegisters : Obligations.ResetEventClearsRegisters := fun _ _ => step_cons

/-- Settles O9: the step is the host read itself, of the register with that number or of none. -/
theorem hostReadDelivers : Obligations.HostReadDelivers := by
  intro s n rest hinbox
  have hstep : step s = hostRead n { s with inbox := rest } := step_cons hinbox
  rw [hstep]
  refine ⟨fun v hv => ?_, fun hn => hostRead_refused hn _⟩
  obtain ⟨hlt, -⟩ := List.getElem?_eq_some_iff.mp hv
  obtain ⟨r, rfl⟩ := exists_number_eq (Nat.le_of_lt_succ hlt)
  rw [hostRead_of_number]
  cases r <;> cases hv <;> rfl

/-- Settles O10: an empty inbox leaves the state, and a clock event drives the port. -/
theorem idleAndClockSteps : Obligations.IdleAndClockSteps :=
  fun _ => ⟨step_nil, fun _ _ => step_cons⟩

/-- Settles O14: the numbers of the model, read off cause by cause. -/
theorem causeNumbers : Obligations.CauseNumbers := by
  unfold Obligations.CauseNumbers
  decide

/-- Settles O50: the state after reset is a state to which a reset event leads. -/
theorem resetMeetsInv : Obligations.ResetMeetsInv := applyReset_inv State.reset

/-- Settles O51: a step is idle or one transaction, and each transaction keeps the invariant. -/
theorem stepKeepsInv : Obligations.StepKeepsInv := fun _ _ => step_inv

/-- Settles O52: well-formed transactions are answered, and what stays pending was pending before. -/
theorem safeRunsNeverStop : Obligations.SafeRunsNeverStop := by
  rintro s ⟨hinv, hpending⟩
  obtain ⟨t, hstep⟩ := exists_step_of_wellFormed hpending
  exact ⟨t, hstep, step_inv hinv hstep, fun ev hev => hpending ev (step_inbox_subset hstep hev)⟩

/-- Settles O53: a transaction that is no write and no reset keeps the operand registers. -/
theorem operandsChangeOnlyByHostOrReset : Obligations.OperandsChangeOnlyByHostOrReset := by
  intro s t hstep hchanged
  rcases step_cases hstep with ⟨-, rfl⟩ | ⟨ev, rest, hinbox, hev⟩
  · exact absurd ⟨rfl, rfl, rfl, rfl, rfl, rfl⟩ hchanged
  · rcases transact_operands hev with hsame | rfl | ⟨n, v, rfl⟩
    · exact absurd hsame hchanged
    · exact ⟨rest, .inl hinbox⟩
    · exact ⟨rest, .inr ⟨n, v, hinbox⟩⟩

/-- Settles O54: a transaction that is no command and no reset keeps the result and the status registers, and none
changes the platform. -/
theorem resultsChangeOnlyByCommandOrReset : Obligations.ResultsChangeOnlyByCommandOrReset := by
  intro s t hstep
  rcases step_cases hstep with ⟨-, rfl⟩ | ⟨ev, rest, hinbox, hev⟩
  · exact ⟨rfl, fun hchanged => absurd ⟨rfl, rfl, rfl, rfl⟩ hchanged⟩
  · refine ⟨(transact_frame hev).1, fun hchanged => ?_⟩
    rcases transact_results hev with hsame | rfl | ⟨w, rfl⟩
    · exact absurd hsame hchanged
    · exact ⟨rest, .inl hinbox⟩
    · exact ⟨rest, .inr ⟨w, hinbox⟩⟩

end Sys2Proof.Proofs

/-! The code page, the whitespace set and the hex digits by their formulas (41_field_encoder.md R90, R91, R93, R96). -/

namespace Sys2Proof.Machine

open Sys2Proof.Config

/-- A run of consecutive pairs answers its own codes, each with the byte at the same distance (R91). -/
theorem lookup_codeRun (c₀ : CharCode) (b₀ : Byte) (c : CharCode) (n : Nat) (h : c₀.toNat + n ≤ 256) :
    (codeRun c₀ b₀ n).lookup c =
      if c₀.toNat ≤ c.toNat ∧ c.toNat < c₀.toNat + n then some (b₀ + (c - c₀)) else none := by
  induction n with
  | zero => simp [codeRun]
  | succ n ih =>
    have hsnoc : codeRun c₀ b₀ (n + 1) =
        codeRun c₀ b₀ n ++ [(c₀ + BitVec.ofNat 8 n, b₀ + BitVec.ofNat 8 n)] := by
      simp [codeRun, List.range_succ]
    rw [hsnoc, List.lookup_append, ih (by omega)]
    by_cases hrun : c₀.toNat ≤ c.toNat ∧ c.toNat < c₀.toNat + n
    · rw [if_pos hrun, if_pos (by omega), Option.some_or]
    · rw [if_neg hrun, Option.none_or]
      by_cases hlast : c.toNat = c₀.toNat + n
      · have hc : c = c₀ + BitVec.ofNat 8 n := by bv_omega
        have hdist : c - c₀ = BitVec.ofNat 8 n := by bv_omega
        rw [if_pos (by omega), hdist, hc]
        simp
      · have hc : ¬ c = c₀ + BitVec.ofNat 8 n := by bv_omega
        rw [if_neg (by omega)]
        simp [hc]

/-- The code page with its extension, by number (R90, R91). -/
def codePageNumber (n : Nat) : Option Nat :=
  if n = 32 then some 64
  else if 48 ≤ n ∧ n ≤ 57 then some (240 + (n - 48))
  else if 65 ≤ n ∧ n ≤ 73 then some (193 + (n - 65))
  else if 74 ≤ n ∧ n ≤ 82 then some (209 + (n - 74))
  else if 83 ≤ n ∧ n ≤ 90 then some (226 + (n - 83))
  else if 97 ≤ n ∧ n ≤ 105 then some (129 + (n - 97))
  else if 106 ≤ n ∧ n ≤ 114 then some (145 + (n - 106))
  else if 115 ≤ n ∧ n ≤ 122 then some (162 + (n - 115))
  else none

/-- Each byte of the table says in which run its character lies, and where. -/
theorem codePageNumber_eq_some {n b : Nat} (h : codePageNumber n = some b) :
    (n = 32 ∧ b = 64) ∨ (48 ≤ n ∧ n ≤ 57 ∧ b = n + 192) ∨ (65 ≤ n ∧ n ≤ 73 ∧ b = n + 128) ∨
    (74 ≤ n ∧ n ≤ 82 ∧ b = n + 135) ∨ (83 ≤ n ∧ n ≤ 90 ∧ b = n + 143) ∨ (97 ≤ n ∧ n ≤ 105 ∧ b = n + 32) ∨
    (106 ≤ n ∧ n ≤ 114 ∧ b = n + 39) ∨ (115 ≤ n ∧ n ≤ 122 ∧ b = n + 47) := by
  unfold codePageNumber at h
  split_ifs at h <;> cases h <;> omega

theorem codePageNumber_injective {n m b : Nat} (hn : codePageNumber n = some b) (hm : codePageNumber m = some b) :
    n = m := by
  have hn := codePageNumber_eq_some hn
  have hm := codePageNumber_eq_some hm
  omega

theorem toNat_add_sub {c c₀ : CharCode} {b₀ : Byte} (hc : c₀.toNat ≤ c.toNat)
    (hb : b₀.toNat + (c.toNat - c₀.toNat) < 256) : (b₀ + (c - c₀)).toNat = b₀.toNat + (c.toNat - c₀.toNat) := by
  bv_omega

/-- A character is the space exactly by its number. -/
theorem eq_space_iff (c : CharCode) : c = 0x20 ↔ c.toNat = 32 := (BitVec.toNat_inj (y := 0x20#8)).symm

/-- The code page proper (R90), by number. -/
theorem cp_toNat (c : CharCode) :
    (cp c).map BitVec.toNat = if c.toNat ≤ 90 then codePageNumber c.toNat else none := by
  simp only [cp, codePageNumber, BitVec.le_def, eq_space_iff]
  grind [toNat_add_sub]

/-- The extension of lower-case letters (R91), by number. -/
theorem lookup_lowerCase_toNat (c : CharCode) :
    (lowerCase.lookup c).map BitVec.toNat = if 97 ≤ c.toNat then codePageNumber c.toNat else none := by
  rw [lowerCase, List.lookup_append, List.lookup_append, lookup_codeRun _ _ _ _ (by decide),
    lookup_codeRun _ _ _ _ (by decide), lookup_codeRun _ _ _ _ (by decide)]
  simp only [codePageNumber]
  grind [toNat_add_sub]

/-- A character's byte is looked up in the code page first, then in the extension (R92). -/
theorem cpByte_eq_or (ext : List (CharCode × Byte)) (c : CharCode) : cpByte ext c = (cp c).or (ext.lookup c) := by
  cases hc : cp c <;> simp [cpByte, hc]

theorem cpByte_lowerCase_toNat (c : CharCode) : (cpByte lowerCase c).map BitVec.toNat = codePageNumber c.toNat := by
  rw [cpByte_eq_or, Option.map_or, cp_toNat, lookup_lowerCase_toNat]
  by_cases hlow : c.toNat ≤ 90
  · simp [hlow, show ¬ 97 ≤ c.toNat by omega]
  · by_cases hhigh : 97 ≤ c.toNat
    · simp [hlow, hhigh]
    · cases hgap : codePageNumber c.toNat with
      | none => simp
      | some b =>
        have := codePageNumber_eq_some hgap
        omega

/-- The code page with its extension is one to one (R90, R91). -/
theorem cpByte_lowerCase_injective {c c' : CharCode} {b : Byte} (h : cpByte lowerCase c = some b)
    (h' : cpByte lowerCase c' = some b) : c = c' := by
  have hn := cpByte_lowerCase_toNat c
  have hm := cpByte_lowerCase_toNat c'
  rw [h, Option.map_some] at hn
  rw [h', Option.map_some] at hm
  exact BitVec.eq_of_toNat_eq (codePageNumber_injective hn.symm hm.symm)

/-- Without the extension only the space, the capital letters and the digits have a byte (R90). -/
theorem cpByte_nil_eq_none_iff (c : CharCode) :
    cpByte [] c = none ↔ ¬ (c.toNat = 32 ∨ 48 ≤ c.toNat ∧ c.toNat ≤ 57 ∨ 65 ≤ c.toNat ∧ c.toNat ≤ 90) := by
  have hcp : cpByte [] c = none ↔ (cp c).map BitVec.toNat = none := by simp [cpByte_eq_or]
  rw [hcp, cp_toNat]
  simp only [codePageNumber]
  grind

theorem isws_iff (c : CharCode) : isws c = true ↔ 9 ≤ c.toNat ∧ c.toNat ≤ 13 ∨ c.toNat = 32 := by
  simp only [isws, wsSet, List.contains_iff_mem, List.mem_cons, List.not_mem_nil, or_false, ← BitVec.toNat_inj]
  grind

theorem hexval_eq (c : CharCode) :
    hexval c =
      if 48 ≤ c.toNat ∧ c.toNat ≤ 57 then some (c.toNat - 48)
      else if 65 ≤ c.toNat ∧ c.toNat ≤ 70 then some (c.toNat - 65 + 10)
      else if 97 ≤ c.toNat ∧ c.toNat ≤ 102 then some (c.toNat - 97 + 10)
      else none := by
  simp only [hexval, BitVec.le_def]
  rfl

end Sys2Proof.Machine

namespace Sys2Proof.Proofs

open Sys2Proof.Machine

/-- Settles O57: each table by its runs of consecutive codes. -/
theorem characterTables : Obligations.CharacterTables := fun c =>
  ⟨cpByte_lowerCase_toNat c, cpByte_nil_eq_none_iff c, fun _ _ => cpByte_lowerCase_injective, isws_iff c, hexval_eq c⟩

end Sys2Proof.Proofs

/-! What an operation does to the state where its pseudocode's run is known, and when it yields a value. -/

namespace Sys2Proof.Machine

open Sys2Proof.Claims

variable {i : Instr} {s : State}

/-- Pseudocode that raises without a request ends the command with that error (60_exceptions.md R196). -/
theorem exec_of_runOf_err {e : Err} (h : runOf i s = .err e) : exec i s = .next (s.raise e []) := by
  rw [exec_eq, h]
  rfl

/-- An error about no register and without a DES code leaves its kind in `STATUS` (60_exceptions.md R193, R196). -/
theorem exec_of_runOf_plain_after {q : List Request} {c : Cause} (h : runOf i s = ⟨q, .error (.plain c)⟩) :
    exec i s = .next (failed s c.kind.code c.code 0x00 q) := by
  rw [exec_eq, h]
  cases c <;> rfl

/-- The same for an error before any request. -/
theorem exec_of_runOf_plain {c : Cause} (h : runOf i s = .err (.plain c)) :
    exec i s = .next (failed s c.kind.code c.code 0x00 []) :=
  exec_of_runOf_plain_after h

theorem deserrErr_of_cryptoError {e : Err} (h : e.cause.kind = .cryptoError) : deserrErr e = e.code := if_pos h

/-- A `CryptoError` is about no register and carries the unit's code (60_exceptions.md R193, R196). -/
theorem raise_cryptoError (s : State) {c : Cause} (hc : c.kind = .cryptoError) (code : Byte) (q : List Request) :
    s.raise ⟨c, .none, code⟩ q = failed s 0x02 c.code code q := by
  have hstatus : statusErr c .none = 0x02 := by
    rw [statusErr_eq, hc]
    rfl
  rw [State.raise, hstatus, deserrErr_of_cryptoError hc]
  rfl

/-- A rejected key ends the command with the unit's code (42_block_cipher.md R113, 60_exceptions.md R196). -/
theorem exec_of_runOf_rejected {q : List Request} {code : Byte}
    (h : runOf i s = ⟨q, .error ⟨.keyRejected, .none, code⟩⟩) : exec i s = .next (failed s 0x02 0x20 code q) := by
  rw [exec_eq, h, finish_of_error s rfl, raise_cryptoError s rfl]
  rfl

/-- A failed encryption ends the command with the unit's code (42_block_cipher.md R113, 60_exceptions.md R196). -/
theorem exec_of_runOf_encryptFailed {q : List Request} {code : Byte}
    (h : runOf i s = ⟨q, .error ⟨.encryptFailed, .none, code⟩⟩) : exec i s = .next (failed s 0x02 0x21 code q) := by
  rw [exec_eq, h, finish_of_error s rfl, raise_cryptoError s rfl]
  rfl

/-- Pseudocode that gives a value completes with it, its requests on record (60_exceptions.md R195). -/
theorem exec_of_runOf_value {q : List Request} {v : Bytes} (h : runOf i s = ⟨q, .ok v⟩) :
    exec i s = .next (done s v q) := by
  rw [exec_eq, h]
  rfl

/-- The value of a completion is the value of the pseudocode: no error leaves the `STATUS` of a completion. -/
theorem yields_iff {v : Bytes} : Yields i s v ↔ (runOf i s).out = .ok v := by
  constructor
  · rintro ⟨t, hexec, hstatus, rfl⟩
    rw [exec_eq] at hexec
    cases hexec
    rcases finish_cases s (runOf i s) with ⟨w, hw, hend⟩ | ⟨e, -, hend⟩
    · rw [hend]; exact hw
    · rw [hend] at hstatus
      exact absurd hstatus (statusErr_ne_done e.cause e.src)
  · intro h
    exact ⟨_, exec_of_runOf_out_ok h, rfl, rfl⟩

end Sys2Proof.Machine

/-! `NORMID` and `TPAD`: a text split into whitespace and the text between (41_field_encoder.md R93 to R95,
45_time_coder.md R154, R155). -/

namespace Sys2Proof.Machine

open Sys2Proof.Config Sys2Proof.Claims

section Text

variable {ext : List (CharCode × Byte)} {t w u w' : Text} {f : Bytes}

theorem stripLeading_of_allWs (hw : AllWs w) : stripLeading w = [] := by
  simpa [stripLeading] using stripLeading_ws_append hw []

theorem stripLeading_of_parts (hw : AllWs w) (hu : StartsPlain u) : stripLeading (w ++ u) = u := by
  obtain ⟨c, r, rfl, hc⟩ := hu
  rw [stripLeading_ws_append hw, stripLeading_cons hc]

theorem ne_nil_of_startsPlain (hu : StartsPlain u) : u ≠ [] := by
  obtain ⟨c, r, rfl, -⟩ := hu
  exact List.cons_ne_nil c r

theorem startsPlain_append (hu : StartsPlain u) (t : Text) : StartsPlain (u ++ t) := by
  obtain ⟨c, r, rfl, hc⟩ := hu
  exact ⟨c, r ++ t, rfl, hc⟩

theorem startsPlain_reverse (hu : EndsPlain u) : StartsPlain u.reverse := by
  obtain ⟨c, r, rfl, hc⟩ := hu
  exact ⟨c, r.reverse, by simp, hc⟩

/-- Trimming strips both ends, the far one read backwards (R93). -/
theorem trim_eq (t : Text) : trim t = (stripLeading (stripLeading t).reverse).reverse := rfl

theorem trim_of_parts (hw : AllWs w) (hw' : AllWs w') (hu : u = [] ∨ StartsPlain u ∧ EndsPlain u) :
    trim (w ++ u ++ w') = u := by
  rcases hu with rfl | ⟨hstart, hend⟩
  · have hall : AllWs (w ++ [] ++ w') := by simpa [AllWs, or_imp, forall_and] using ⟨hw, hw'⟩
    rw [trim_eq, stripLeading_of_allWs hall]
    rfl
  · have hback : AllWs w'.reverse := fun c hc => hw' c (List.mem_reverse.mp hc)
    rw [trim_eq, List.append_assoc, stripLeading_of_parts hw (startsPlain_append hstart w'), List.reverse_append,
      stripLeading_of_parts hback (startsPlain_reverse hend), List.reverse_reverse]

/-- The statements' encoding of a text is the model's (R92). -/
theorem encodes_iff : Encodes ext u f ↔ cpenc ext u = .ok f := (cpenc_eq_ok ext u f).symm

theorem cpenc_of_unmappable (h : ∃ c ∈ u, cpByte ext c = none) : cpenc ext u = .error .unmappableChar :=
  (cpenc_eq_error ext u _).mpr ⟨rfl, h⟩

theorem normalizeIdentifier_empty (h : stripLeading t = []) :
    normalizeIdentifier ext (some t) = .error .idEmpty := by
  simp [normalizeIdentifier, h]

theorem normalizeIdentifier_unmappable (h : stripLeading t ≠ [])
    (hc : cpenc ext (stripLeading t) = .error .unmappableChar) :
    normalizeIdentifier ext (some t) = .error .unmappableChar := by
  simp [normalizeIdentifier, h, hc]

theorem normalizeIdentifier_encoded (h : stripLeading t ≠ []) (hc : cpenc ext (stripLeading t) = .ok f) :
    normalizeIdentifier ext (some t) =
      if 8 < f.length then .error .idTooLong else .ok (f ++ rep 0x40 (8 - f.length)) := by
  by_cases hlen : 8 < f.length <;> simp [normalizeIdentifier, h, hc, fieldLen, fieldPad, hlen]

theorem tcPad_unmappable (hc : cpenc ext (trim t) = .error .unmappableChar) :
    tcPad ext t = .error .unmappableChar := by
  simp [tcPad, hc]

theorem tcPad_encoded (hc : cpenc ext (trim t) = .ok f) :
    tcPad ext t = if 12 < f.length then .error .padUidLen else .ok (f ++ rep 0x55 (12 - f.length)) := by
  by_cases hlen : 12 < f.length <;> simp [tcPad, hc, padLen, padFill, hlen]

end Text

section Operations

variable {s : State}

/-- The register that the statements of `NORMID` speak of is the one it reads (R95). -/
theorem idText_eq (s : State) (sel : IdSel) : idText s sel = s.selected sel := by
  cases sel <;> rfl

theorem exec_normid_of_ok {sel : IdSel} {f : Bytes} (h : normalizeIdentifier s.plat.cpExt (idText s sel) = .ok f) :
    exec (.normid sel) s = .next (done s f []) := by
  rw [idText_eq] at h
  exact exec_of_runOf_ok (by rw [runOf, normidRun, h, Run.lift_ok])

theorem exec_normid_of_error {sel : IdSel} {c : Cause}
    (h : normalizeIdentifier s.plat.cpExt (idText s sel) = .error c) :
    exec (.normid sel) s = .next (s.raise (.about (srcOfSel sel) c) []) := by
  rw [idText_eq] at h
  exact exec_of_runOf_err (by rw [runOf, normidRun, h, Run.lift_error])

/-- An `InvalidInput` about the selected register (R193). -/
theorem raise_invalid (s : State) (sel : IdSel) {c : Cause} (hc : c.kind = .invalidInput) :
    s.raise (.about (srcOfSel sel) c) [] = failed s (invalidStatus sel) c.code 0x00 [] := by
  cases sel <;> simp [raise_eq_failed, Err.about, deserrErr, hc, srcOfSel, Src.code, Kind.code, invalidStatus]

theorem raise_unmappable (s : State) (sel : IdSel) :
    s.raise (.about (srcOfSel sel) .unmappableChar) [] = failed s (unmappableStatus sel) 0x44 0x00 [] := by
  cases sel <;> rfl

theorem exec_tpad_of_ok {t : Text} {p : Bytes} (huid : s.uid = some t) (h : tcPad s.plat.cpExt t = .ok p) :
    exec .tpad s = .next (done s p []) :=
  exec_of_runOf_ok (by rw [runOf, tpadRun, huid, needUid_some, Run.ok_bind, h, Run.lift_ok])

theorem exec_tpad_of_error {t : Text} {c : Cause} (huid : s.uid = some t) (h : tcPad s.plat.cpExt t = .error c) :
    exec .tpad s = .next (s.raise (padErr c) []) :=
  exec_of_runOf_err (by rw [runOf, tpadRun, huid, needUid_some, Run.ok_bind, h, Run.lift_error])

end Operations

end Sys2Proof.Machine

namespace Sys2Proof.Proofs

open Sys2Proof.Machine Sys2Proof.Claims

/-- Settles O17: stripping leaves the text after the whitespace, which encodes and fits the field. -/
theorem normidField : Obligations.NormidField := by
  intro sel s w u f htext hw hu henc hlen
  have hstrip := stripLeading_of_parts hw hu
  have hcp := encodes_iff.mp henc
  have hf := cpenc_length _ hcp
  rw [← hf]
  refine exec_normid_of_ok ?_
  rw [htext, normalizeIdentifier_encoded (hstrip.symm ▸ ne_nil_of_startsPlain hu) (hstrip ▸ hcp), if_neg (by omega)]
  rfl

/-- Settles O18: one check after the other fails, in the order of R94. -/
theorem normidErrors : Obligations.NormidErrors := by
  intro sel s
  refine ⟨fun habsent => ?absent, fun w htext hw => ?empty, fun w u htext hw hu hnone => ?unmappable,
    fun w u f htext hw hu henc hlen => ?tooLong⟩
  case absent =>
    rw [exec_normid_of_error (c := .idAbsent) (by rw [habsent]; rfl), raise_invalid s sel rfl]
    rfl
  case empty =>
    have hempty := normalizeIdentifier_empty (ext := s.plat.cpExt) (stripLeading_of_allWs hw)
    rw [exec_normid_of_error (htext ▸ hempty), raise_invalid s sel rfl]
    rfl
  case unmappable =>
    have hstrip := stripLeading_of_parts hw hu
    have hfail := normalizeIdentifier_unmappable (hstrip.symm ▸ ne_nil_of_startsPlain hu)
      (hstrip ▸ cpenc_of_unmappable hnone)
    rw [exec_normid_of_error (htext ▸ hfail), raise_unmappable]
  case tooLong =>
    have hstrip := stripLeading_of_parts hw hu
    have hcp := encodes_iff.mp henc
    have hf := cpenc_length _ hcp
    have hfail := normalizeIdentifier_encoded (hstrip.symm ▸ ne_nil_of_startsPlain hu) (hstrip ▸ hcp)
    rw [if_pos (by omega)] at hfail
    rw [exec_normid_of_error (htext ▸ hfail), raise_invalid s sel rfl]
    rfl

/-- Settles O19: a field is the encoding of a text whose first character is no whitespace, and only the space has the
byte 0x40. -/
theorem normidFieldStartsPlain : Obligations.NormidFieldStartsPlain := by
  intro sel s f hext hyields
  have hf : normalizeIdentifier s.plat.cpExt (s.selected sel) = .ok f := Run.lift_out_ok (yields_iff.mp hyields)
  refine ⟨normalizeIdentifier_length _ hf, ?_⟩
  rw [hext] at hf
  cases hraw : s.selected sel with
  | none => rw [hraw] at hf; cases hf
  | some t =>
    rw [hraw] at hf
    rcases normalizeIdentifier_some lowerCase t with ⟨-, h⟩ | ⟨-, -, h⟩ | ⟨_, -, -, -, h⟩ | ⟨g, hne, hcp, -, h⟩ <;>
      rw [h] at hf <;> cases hf
    obtain ⟨_, -, -, hplain⟩ := exists_stripLeading t
    cases hu : stripLeading t with
    | nil => exact absurd hu hne
    | cons c r =>
      rw [hu, cpenc_eq_ok] at hcp
      cases g with
      | nil => simp at hcp
      | cons b g =>
        refine ⟨b, _, rfl, ?_⟩
        rintro rfl
        have hc : cpByte lowerCase c = some 0x40 := by simpa using (List.cons.inj hcp).1
        have hspace : c = 0x20 := cpByte_lowerCase_injective hc rfl
        have hws := hplain c r hu
        rw [hspace] at hws
        exact absurd hws (by decide)

/-- Settles O31: trimming leaves the text between the whitespace, which encodes and fits the padding. -/
theorem tpadResult : Obligations.TpadResult := by
  intro s w u w' f huid hw hw' hu henc hlen
  have htrim := trim_of_parts hw hw' hu
  have hcp := encodes_iff.mp henc
  have hf := cpenc_length _ hcp
  rw [← hf]
  refine exec_tpad_of_ok huid ?_
  rw [tcPad_encoded (htrim ▸ hcp), if_neg (by omega)]
  rfl

/-- Settles O32: one check after the other fails, in the order of R154 and R155. -/
theorem tpadErrors : Obligations.TpadErrors := by
  intro s
  refine ⟨fun habsent => ?absent, fun w u w' huid hw hw' hstart hend => ?present⟩
  case absent => exact exec_of_runOf_err (e := .about .uid .operandAbsent) (by rw [runOf, tpadRun, habsent]; rfl)
  case present =>
    have htrim := trim_of_parts hw hw' (.inr ⟨hstart, hend⟩)
    refine ⟨fun hnone => ?unmappable, fun f henc hlen => ?tooLong⟩
    case unmappable =>
      exact exec_tpad_of_error huid (tcPad_unmappable (htrim.symm ▸ cpenc_of_unmappable hnone))
    case tooLong =>
      have hcp := encodes_iff.mp henc
      have hf := cpenc_length _ hcp
      have hfail := tcPad_encoded (htrim ▸ hcp)
      rw [if_pos (by omega)] at hfail
      exact exec_tpad_of_error huid hfail

end Sys2Proof.Proofs

/-! `DECKEY` and `ENCR`: the key text as digits, and what the DES unit is asked (41_field_encoder.md R96 to R98,
42_block_cipher.md R113 to R115). -/

namespace Sys2Proof.Machine

open Sys2Proof.Config Sys2Proof.Claims

section Key

/-- Each pair of digits makes a byte, the first digit its high half (R97). -/
theorem exists_hexBytes : ∀ (t : Text) (digits : List Nat), t.map hexval = digits.map some → digits.length % 2 = 0 →
    ∃ k, hexBytes t = some k ∧
      ∀ i, (k.getD i 0).toNat = 16 * digits.getD (2 * i) 0 + digits.getD (2 * i + 1) 0
  | [], [], _, _ => ⟨[], rfl, by simp⟩
  | [], _ :: _, h, _ => by simp at h
  | _ :: _, [], h, _ => by simp at h
  | [_], [_], _, hlen => by simp at hlen
  | [_], _ :: _ :: _, h, _ => by simp at h
  | _ :: _ :: _, [_], h, _ => by simp at h
  | c₀ :: c₁ :: t, h :: l :: digits, hmap, hlen => by
    simp only [List.map_cons, List.cons.injEq] at hmap
    obtain ⟨hhigh, hlow, hrest⟩ := hmap
    obtain ⟨k, hk, hbytes⟩ := exists_hexBytes t digits hrest (by simp only [List.length_cons] at hlen; omega)
    refine ⟨BitVec.ofNat 8 (16 * h + l) :: k, by simp [hexBytes, hhigh, hlow, hk], fun i => ?_⟩
    cases i with
    | zero =>
      have := hexval_lt hhigh
      have := hexval_lt hlow
      simp; omega
    | succ i => simpa [Nat.mul_add] using hbytes i

/-- A character that is no hex digit spoils the whole text (R97). -/
theorem hexBytes_of_not_hex : ∀ t : Text, (∃ c ∈ t, hexval c = none) → hexBytes t = none
  | [], h => by simp at h
  | [_], _ => rfl
  | c₀ :: c₁ :: t, h => by
    simp only [List.mem_cons, exists_eq_or_imp] at h
    rcases h with h | h | h
    · simp [hexBytes, h]
    · simp [hexBytes, h]
    · simp [hexBytes, hexBytes_of_not_hex t h]

variable {t : Text}

/-- The key characters that the statements speak of are those the model decodes (R97). -/
theorem keyChars_eq (t : Text) : keyChars t = removeWs t := rfl

theorem decodeKeyBytes_of_length_ne (h : (keyChars t).length ≠ 16) : decodeKeyBytes (some t) = .error .keyLength :=
  if_neg h

theorem decodeKeyBytes_of_none (hlen : (keyChars t).length = 16) (h : hexBytes (keyChars t) = none) :
    decodeKeyBytes (some t) = .error .keyNotHex := by
  rw [keyChars_eq] at hlen h
  simp [decodeKeyBytes, hlen, keyHexLen, h]

theorem decodeKeyBytes_of_some {k : Bytes} (hlen : (keyChars t).length = 16) (h : hexBytes (keyChars t) = some k) :
    decodeKeyBytes (some t) = .ok k := by
  rw [keyChars_eq] at hlen h
  simp [decodeKeyBytes, hlen, keyHexLen, h]

/-- Decoding sees of a key text only the digit values (R96, R97). -/
theorem decodeKeyBytes_congr {a b : Text} (h : (keyChars a).map hexval = (keyChars b).map hexval) :
    decodeKeyBytes (some a) = decodeKeyBytes (some b) := by
  have hlen : (keyChars a).length = (keyChars b).length := by simpa using congrArg List.length h
  have hbytes := hexBytes_congr _ _ h
  rw [keyChars_eq, keyChars_eq] at hlen hbytes
  simp only [decodeKeyBytes, hlen, hbytes]

end Key

section Operations

variable {s : State}

theorem exec_deckey_of_error {c : Cause} (h : decodeKeyBytes s.khx = .error c) :
    exec .deckey s = .next (s.raise (.about .khx c) []) :=
  exec_of_runOf_err (by rw [runOf, deckeyRun, h, Run.lift_error, Run.err_bind])

/-- Binding a key that the unit accepts makes one request (42_block_cipher.md R114). -/
theorem bindKey_of_ok {d : DesUnit} {k : Bytes} (h : desKs d k = .ok) :
    bindKey d k = { reqs := [.desKs k], out := .ok () } := by
  simp [bindKey, h]

/-- A rejected key ends the command with the unit's code (42_block_cipher.md R113). -/
theorem bindKey_of_fail {d : DesUnit} {k : Bytes} {code : Byte} (h : desKs d k = .fail code) :
    bindKey d k = { reqs := [.desKs k], out := .error ⟨.keyRejected, .none, code⟩ } := by
  simp [bindKey, h]

theorem encrypt_of_ok {d : DesUnit} {k b : Bytes} {c : Vector Byte 8} (h : desE d k b = .ok c) :
    encrypt d k b = { reqs := [.desE k b], out := .ok c.toList } := by
  simp [encrypt, h]

theorem encrypt_of_fail {d : DesUnit} {k b : Bytes} {code : Byte} (h : desE d k b = .fail code) :
    encrypt d k b = { reqs := [.desE k b], out := .error ⟨.encryptFailed, .none, code⟩ } := by
  simp [encrypt, h]

theorem exec_deckey_of_accepted {k : Bytes} (hk : decodeKeyBytes s.khx = .ok k) (hks : desKs s.plat.des k = .ok) :
    exec .deckey s = .next (done s k [.desKs k]) :=
  exec_of_runOf_value (by rw [runOf, deckeyRun, hk, Run.lift_ok, Run.ok_bind, bindKey_of_ok hks]; rfl)

theorem exec_deckey_of_rejected {k : Bytes} {code : Byte} (hk : decodeKeyBytes s.khx = .ok k)
    (hks : desKs s.plat.des k = .fail code) :
    exec .deckey s = .next (failed s 0x02 0x20 code [.desKs k]) :=
  exec_of_runOf_rejected (by rw [runOf, deckeyRun, hk, Run.lift_ok, Run.ok_bind, bindKey_of_fail hks]; rfl)

/-- With operands of the right lengths `ENCR` is one binding and one encryption (R115). -/
theorem encrRun_of_lengths {p : Platform} {key opa : Bytes} (hkey : key.length = 8) (hopa : opa.length = 8) :
    encrRun p key opa = (bindKey p.des key).bind fun _ => encrypt p.des key opa := by
  rw [encrRun, needLength_of_eq (n := blockLen) hkey, Run.ok_bind, needLength_of_eq (n := blockLen) hopa, Run.ok_bind]

theorem encrRun_of_wrong_length {p : Platform} {key opa : Bytes} (h : key.length ≠ 8 ∨ opa.length ≠ 8) :
    encrRun p key opa = .err (.plain .operandLength) := by
  by_cases hkey : key.length = 8
  · have hopa : opa.length ≠ 8 := h.resolve_left (not_not_intro hkey)
    rw [encrRun, needLength_of_eq (n := blockLen) hkey, Run.ok_bind, needLength_of_ne (n := blockLen) hopa,
      Run.err_bind]
  · rw [encrRun, needLength_of_ne (n := blockLen) hkey, Run.err_bind]

/-- The end of a command writes no text register, so it commutes with setting one. -/
theorem finish_with_khx (s : State) (x : Option Text) (m : Run Bytes) :
    ({ s with khx := x } : State).finish m = { s.finish m with khx := x } := by
  cases h : m.out with
  | ok v => rw [finish_of_ok _ h, finish_of_ok _ h]; rfl
  | error e => rw [finish_of_error _ h, finish_of_error _ h]; rfl

end Operations

end Sys2Proof.Machine

namespace Sys2Proof.Proofs

open Sys2Proof.Machine Sys2Proof.Claims

/-- Settles O20: sixteen digits decode to a key of 8 bytes, which is then offered to the unit. -/
theorem deckeyKeyBytes : Obligations.DeckeyKeyBytes := by
  intro s t digits hkhx hdigits hlen
  have hchars : (keyChars t).length = 16 := by simpa [hlen] using congrArg List.length hdigits
  obtain ⟨k, hk, hbytes⟩ := exists_hexBytes _ _ hdigits (by rw [hlen])
  have hdec := decodeKeyBytes_of_some hchars hk
  have hsel : decodeKeyBytes s.khx = .ok k := hkhx ▸ hdec
  exact ⟨k, decodeKeyBytes_length hdec, fun i _ => hbytes i, exec_deckey_of_accepted hsel,
    fun code => exec_deckey_of_rejected hsel⟩

/-- Settles O21: one check after the other fails, in the order of R97. -/
theorem deckeyErrors : Obligations.DeckeyErrors := by
  intro s
  refine ⟨fun hkhx => ?absent, fun t hkhx hlen => ?length, fun t hkhx hlen hnone => ?notHex⟩
  case absent => exact exec_deckey_of_error (c := .keyAbsent) (by rw [hkhx]; rfl)
  case length => exact exec_deckey_of_error (hkhx ▸ decodeKeyBytes_of_length_ne hlen)
  case notHex => exact exec_deckey_of_error (hkhx ▸ decodeKeyBytes_of_none hlen (hexBytes_of_not_hex _ hnone))

/-- Settles O22: both texts decode alike, so both commands run the same pseudocode to the same end. -/
theorem deckeyIgnoresCaseAndSpacing : Obligations.DeckeyIgnoresCaseAndSpacing := by
  intro s t₁ t₂ a b hdigits h₁ h₂
  have hrun : runOf .deckey { s with khx := some a } = runOf .deckey { s with khx := some b } := by
    simp only [runOf, deckeyRun, decodeKeyBytes_congr hdigits]
  rw [exec_eq, hrun, finish_with_khx] at h₁
  rw [exec_eq, finish_with_khx] at h₂
  cases h₁
  cases h₂
  rfl

/-- Settles O23: both lengths are right, so the two requests are made, and both are granted. -/
theorem encrCompletes : Obligations.EncrCompletes := by
  intro s c hkey hopa hks hc
  refine exec_of_runOf_value ?_
  rw [runOf, encrRun_of_lengths hkey hopa, bindKey_of_ok hks, encrypt_of_ok hc]
  rfl

/-- Settles O24: a wrong length ends the command before any request, a failing request ends it there. -/
theorem encrErrors : Obligations.EncrErrors := by
  intro s
  refine ⟨fun hlen => ?length, fun hkey hopa => ⟨fun code hks => ?rejected, fun code hks hc => ?failed⟩⟩
  case length => exact exec_of_runOf_plain (i := .encr) (encrRun_of_wrong_length hlen)
  case rejected =>
    refine exec_of_runOf_rejected ?_
    rw [runOf, encrRun_of_lengths hkey hopa, bindKey_of_fail hks]
    rfl
  case failed =>
    refine exec_of_runOf_encryptFailed ?_
    rw [runOf, encrRun_of_lengths hkey hopa, bindKey_of_ok hks, encrypt_of_fail hc]
    rfl

end Sys2Proof.Proofs

/-! `BITS` and `PERM` bit by bit (43_bitops.md R122, R123, 45_time_coder.md R151 to R153). -/

namespace Sys2Proof.Machine

open Sys2Proof.Config Sys2Proof.Claims

section Bits

theorem bitByte_toNat (b : Bool) : (bitByte b).toNat = b.toNat := by
  cases b <;> rfl

/-- The bit that the statements read off a byte string is the one of its expansion (R13, R122). -/
theorem bitOf_eq (b : Bytes) (p : Nat) : bitOf b p = ((bitsOf b).getD p false).toNat := by
  have hp : p = 8 * (p / 8) + p % 8 := (Nat.div_add_mod p 8).symm
  have hbit := bitsOf_getD b (p / 8) (p % 8) (Nat.mod_lt p (by decide))
  rw [← hp] at hbit
  rw [hbit, bitOf, BitVec.getLsbD, Nat.toNat_testBit]

/-- A byte of the result of `BITS` is the bit at its index. -/
theorem bitByte_bitsOf_getD (b : Bytes) (p : Nat) : (((bitsOf b).map bitByte).getD p 0).toNat = bitOf b p := by
  have hfalse : (0 : Byte) = bitByte false := rfl
  rw [hfalse, List.getD_map, bitByte_toNat, bitOf_eq]

theorem bitOf_split (b : Bytes) (i : Nat) {j : Nat} (hj : j < 8) :
    bitOf b (8 * i + j) = (b.getD i 0).toNat / 2 ^ (7 - j) % 2 := by
  rw [bitOf, show (8 * i + j) / 8 = i by omega, show (8 * i + j) % 8 = j by omega]

end Bits

section Perm

variable {row : List Nat} {x : Bytes}

/-- A bit of the result of `PERM`, for a row of sixteen entries (R152). -/
theorem bitOf_pack_select (hrow : row.length = 16) {k : Nat} (hk : k < 16) :
    bitOf (pack (select row (bitsOf x))) k = bitOf x (row.getD k 0 - 1) := by
  have hbits : bitsOf (pack (select row (bitsOf x))) = row.map (bitAt (bitsOf x)) := bitsOf_pack _ (by simp [hrow])
  have hk' : k < row.length := by omega
  rw [bitOf_eq, hbits, bitOf_eq, List.getD_eq_getElem _ _ (by simpa using hk'), List.getElem_map,
    List.getD_eq_getElem _ _ hk', bitAt]

/-- The positions of a row: each of 1 to 16 once (R151). -/
def positions : List Nat := (List.range 16).map (· + 1)

theorem permRow_cases {i : Nat} (h : permRow i = some row) : 1 ≤ i ∧ i ≤ 6 ∧ row.Perm positions := by
  obtain ⟨hlow, hhigh⟩ := (permRow_isSome_iff i).mp ⟨row, h⟩
  refine ⟨hlow, hhigh, ?_⟩
  interval_cases i <;> cases h <;> decide

/-- Reading a sequence of sixteen bits at every position gives it back. -/
theorem select_positions {v : Bits} (h : v.length = 16) : select positions v = v := by
  refine List.ext_getElem (by simp [positions, h]) fun k hk hk' => ?_
  simp [select, positions, bitAt, List.getD_eq_getElem?_getD, hk']

/-- The selected bits are the bits in another order. -/
theorem count_select (hrow : row.Perm positions) (hx : x.length = 2) :
    (select row (bitsOf x)).count true = weight x := by
  calc (select row (bitsOf x)).count true
      = (select positions (bitsOf x)).count true := (hrow.map _).count_eq true
    _ = weight x := by rw [select_positions (by simp [hx]), weight]

/-- A permutation that completes rearranges the sixteen bits by its row (R152). -/
theorem permute_eq_ok {z : Bytes} {i : Nat} (h : permute x i = .ok z) :
    ∃ row, x.length = 2 ∧ permRow i = some row ∧ bitsOf z = select row (bitsOf x) := by
  rcases permute_cases x i with ⟨-, hx⟩ | ⟨-, -, hx⟩ | ⟨row, hlen, hrow, hx⟩ <;> rw [hx] at h <;> cases h
  exact ⟨row, hlen, hrow, bitsOf_pack _ (by simp [permRow_length hrow])⟩

end Perm

end Sys2Proof.Machine

namespace Sys2Proof.Proofs

open Sys2Proof.Machine Sys2Proof.Claims

/-- Settles O26: byte `8*i + j` of the result is the bit of that index. -/
theorem bitsResult : Obligations.BitsResult := by
  intro s
  refine ⟨(bitsOf s.opa).map bitByte, exec_of_runOf_ok rfl, by simp, fun i j _ hj => ?_⟩
  rw [bitByte_bitsOf_getD, bitOf_split s.opa i hj]

/-- Settles O33: the two bytes pack the sixteen bits that the row selects. -/
theorem permResult : Obligations.PermResult := by
  intro s round row hopa hrow
  have hrun : permute s.opa round.toNat = .ok (pack (select row (bitsOf s.opa))) := by
    simp [permute, hopa, hrow, Config.halfLen]
  refine ⟨_, exec_of_runOf_ok (by rw [runOf, hrun, Run.lift_ok]), permute_length hrun, fun k hk => ?_⟩
  exact bitOf_pack_select (permRow_length hrow) hk

/-- Settles O34: the length is checked before the round, and only the rounds 1 to 6 have a row. -/
theorem permErrors : Obligations.PermErrors := by
  intro s round
  refine ⟨fun hopa => ?length, fun hopa hround => ?round⟩
  case length =>
    have hrun : permute s.opa round.toNat = .error .permInputLen := if_neg hopa
    exact exec_of_runOf_plain (i := .perm round) (by rw [runOf, hrun, Run.lift_error])
  case round =>
    have hnone : permRow round.toNat = none := by
      refine Option.eq_none_iff_forall_ne_some.mpr fun row hrow => ?_
      obtain ⟨hlow, hhigh, -⟩ := permRow_cases hrow
      omega
    have hrun : permute s.opa round.toNat = .error .permRound := by simp [permute, hopa, hnone, Config.halfLen]
    exact exec_of_runOf_plain (i := .perm round) (by rw [runOf, hrun, Run.lift_error])

/-- Settles O35: a completing `PERM` has a row, and each row moves every bit once. -/
theorem permKeepsWeight : Obligations.PermKeepsWeight := by
  intro s round v hyields
  obtain ⟨row, hopa, hrow, hbits⟩ := permute_eq_ok (Run.lift_out_ok (yields_iff.mp hyields))
  obtain ⟨-, -, hperm⟩ := permRow_cases hrow
  rw [weight, hbits, count_select hperm hopa]

/-- Settles O36: the model's six rows, each checked to be a permutation. -/
theorem permTables : Obligations.PermTables :=
  ⟨rfl, rfl, rfl, rfl, rfl, rfl, fun _ _ => permRow_cases⟩

end Sys2Proof.Proofs

/-! `XLATC` and `XLAT`: the value of a window and the code of its character (46_translator.md R170 to R174). -/

namespace Sys2Proof.Machine

open Sys2Proof.Config Sys2Proof.Claims

/-- Six bits, first most significant (R171). -/
theorem windowValue_eq (b : Bytes) {start : Nat} (h : 1 ≤ start) : windowValue (bitsOf b) start = window b start := by
  obtain ⟨n, rfl⟩ : ∃ n, start = n + 1 := ⟨start - 1, by omega⟩
  simp only [windowValue, window, bitOf_eq, List.range_succ_eq_map]
  simp [bitsValue, Nat.add_assoc]
  omega

theorem windowValue_add_32 (v : Bits) {start : Nat} (h : 1 ≤ start) :
    windowValue v (start + 32) = windowValue v start := by
  have hwrap (j : Nat) : (start + 32 - 1 + j) % 32 = (start - 1 + j) % 32 := by omega
  simp only [windowValue, hwrap]

theorem alphabet_toNat {n : Nat} (h : n < 36) : (alphabet n).toNat = if n ≤ 25 then 0x41 + n else 0x30 + (n - 26) := by
  unfold alphabet
  split <;> simp <;> omega

/-- The code of a window's character (R170, R171). -/
theorem translateChar_toNat (b : Bytes) {start : Nat} (h : 1 ≤ start) :
    (translateChar (bitsOf b) start).toNat = tokenCode (window b start) := by
  rw [translateChar, alphabet_toNat (Nat.mod_lt _ (by decide)), windowValue_eq b h, tokenCode]

theorem exec_xlatc_of_length {s : State} {start : BitVec 8} (hopa : s.opa.length = 4) (hstart : start ≠ 0) :
    exec (.xlatc start) s = .next (done s [translateChar (bitsOf s.opa) start.toNat] []) :=
  exec_of_runOf_ok (by rw [runOf, xlatcRun, if_neg hstart, needLength_of_eq (n := resultLen) hopa, Run.ok_bind])

theorem exec_xlat_of_length {s : State} (hopa : s.opa.length = 4) :
    exec .xlat s = .next (done s (translateAll s.opa) []) :=
  exec_of_runOf_ok (by rw [runOf, xlatRun, needLength_of_eq (n := resultLen) hopa, Run.ok_bind])

end Sys2Proof.Machine

namespace Sys2Proof.Proofs

open Sys2Proof.Machine Sys2Proof.Claims Sys2Proof.Config

/-- Settles O40: the character of the window at `start`, and the window wraps modulo 32. -/
theorem xlatcResult : Obligations.XlatcResult := by
  intro s start hopa hstart
  have hpos : 1 ≤ start.toNat := by bv_omega
  refine ⟨_, exec_xlatc_of_length hopa hstart, translateChar_toNat s.opa hpos, fun hmax => ?_⟩
  have hsum : (start + 32).toNat = start.toNat + 32 := by bv_omega
  have hne : start + 32 ≠ 0 := by bv_omega
  rw [exec_xlatc_of_length hopa hne, hsum, translateChar, translateChar, windowValue_add_32 _ hpos]

/-- Settles O41: one character for each of the eight starts. -/
theorem xlatResult : Obligations.XlatResult := by
  intro s hopa
  refine ⟨_, exec_xlat_of_length hopa, ?_⟩
  rw [translateAll, windowStarts, List.map_map]
  refine List.map_congr_left fun start hstart => translateChar_toNat s.opa ?_
  exact (show ∀ n ∈ [31, 3, 7, 11, 15, 19, 23, 27], 1 ≤ n by decide) start hstart

/-- Settles O30: each of the three looks at the length before anything else. -/
theorem fourByteOperandRequired : Obligations.FourByteOperandRequired := by
  intro s hopa
  refine ⟨?tmix, ?xlat, fun start hstart => ?xlatc⟩
  case tmix =>
    exact exec_of_runOf_plain (i := .tmix)
      (by rw [runOf, tmixRun, needLength_of_ne (n := resultLen) hopa, Run.err_bind])
  case xlat =>
    exact exec_of_runOf_plain (i := .xlat)
      (by rw [runOf, xlatRun, needLength_of_ne (n := resultLen) hopa, Run.err_bind])
  case xlatc =>
    exact exec_of_runOf_plain (i := .xlatc start)
      (by rw [runOf, xlatcRun, if_neg hstart, needLength_of_ne (n := resultLen) hopa, Run.err_bind])

end Sys2Proof.Proofs

/-! `TMIX`: the bytes of the time that enter the mix (44_orchestrator.md R130, R131, R133). -/

namespace Sys2Proof.Machine

open Sys2Proof.Config Sys2Proof.Claims

/-- Byte strings of one length are told apart by their value. -/
theorem eq_of_bigEndian_eq {a b : Bytes} (hlen : a.length = b.length) (h : bigEndian a = bigEndian b) : a = b := by
  induction a using List.reverseRecOn generalizing b with
  | nil => exact (List.eq_nil_of_length_eq_zero hlen.symm).symm
  | append_singleton a x ih =>
    cases b using List.reverseRecOn with
    | nil => simp at hlen
    | append_singleton b y =>
      rw [bigEndian_concat, bigEndian_concat] at h
      have hx : x.toNat < 256 := x.isLt
      have hy : y.toNat < 256 := y.isLt
      have hlast : x = y := BitVec.eq_of_toNat_eq (by omega)
      have hinit : a = b := ih (by simpa using hlen) (by omega)
      rw [hinit, hlast]

/-- The encoding of R130 is unique, so it is the model's. -/
theorem eq_timeBytes {tb : Bytes} {t : Nat} (ht : t < 2 ^ 63) (h : IsTimeEncoding tb t) : tb = timeBytes t := by
  obtain ⟨hzero, hvalue, hleast⟩ := h
  obtain ⟨hzero', hvalue', hleast'⟩ := timeBytes_isTimeEncoding ht
  exact eq_of_bigEndian_eq (le_antisymm (hleast _ hzero' hvalue') (hleast' _ hzero hvalue))
    (hvalue.trans hvalue'.symm)

/-- Before 2^31 both policies mix the whole encoding (R131). -/
theorem mixedTime_of_short (policy : TimeWidePolicy) {t : Nat} (h : timeLen t ≤ 4) :
    mixedTime policy t = timeBytes t := by
  cases policy with
  | low4 => exact if_neg (by simpa [resultLen] using h)
  | fault => rfl

theorem mixedTime_low4_of_wide {t : Nat} (h : 4 < timeLen t) : mixedTime .low4 t = right (timeBytes t) 4 :=
  if_pos (by simpa [resultLen] using h)

/-- The four rightmost bytes of a wide time (R131). -/
theorem right_timeBytes_getD {t i : Nat} (h : 4 < timeLen t) (hi : i < 4) :
    (right (timeBytes t) 4).getD i 0 = BitVec.ofNat 8 (t / 256 ^ (3 - i)) := by
  have hindex : timeLen t - 4 + i < timeLen t := by omega
  have hplace : timeLen t - 1 - (timeLen t - 4 + i) = 3 - i := by omega
  simp [right, timeBytes, List.getD_eq_getElem?_getD, List.getElem?_drop, hindex, hplace, pow_mul]

theorem exec_tmix_of_length {s : State} (hopa : s.opa.length = 4) :
    exec .tmix s = .next (done s (xorv s.opa (mixedTime s.plat.timeWide s.now.toNat)) [.sample]) :=
  exec_of_runOf_value (by rw [runOf, tmixRun, needLength_of_eq (n := resultLen) hopa, Run.ok_bind]; rfl)

end Sys2Proof.Machine

namespace Sys2Proof.Proofs

open Sys2Proof.Machine Sys2Proof.Claims

/-- Settles O29: the operand is XORed with the bytes that the policy lets through, read byte by byte. -/
theorem tmixResult : Obligations.TmixResult := by
  intro s tb hopa htb
  have ht : s.now.toNat < 2 ^ 63 := s.now.isLt
  have hshort : timeLen s.now.toNat ≤ 4 ↔ s.now.toNat < 2 ^ 31 := timeLen_le_iff ht (by omega)
  obtain rfl := eq_timeBytes ht htb
  refine ⟨_, exec_tmix_of_length hopa, fun hlow => ?short, fun hhigh hpolicy => ?low4, fun hhigh hpolicy => ?fault⟩
  case short =>
    have hlen := hshort.mpr hlow
    rw [mixedTime_of_short _ hlen]
    refine ⟨?_, fun i _ => xorv_getD _ _ i, fun i hi => xorv_getD_of_right_le _ _ i hi⟩
    rw [xorv_length, hopa, timeBytes_length]
    omega
  case low4 =>
    have hlen : 4 < timeLen s.now.toNat := by omega
    rw [hpolicy, mixedTime_low4_of_wide hlen]
    refine ⟨by simp [hopa], fun i hi => ?_⟩
    rw [xorv_getD, right_timeBytes_getD hlen hi]
  case fault =>
    have hlen : 4 < timeLen s.now.toNat := by omega
    rw [hpolicy, mixedTime]
    refine ⟨?_, fun i _ => xorv_getD _ _ i, fun i hi => ?_⟩
    · rw [xorv_length, hopa, timeBytes_length]
      omega
    · rw [xorv_comm]
      exact xorv_getD_of_right_le _ _ i (by omega)

end Sys2Proof.Proofs

/-! The time coder round by round (45_time_coder.md R150, R156 to R158) and the operation `TCODE`. -/

namespace Sys2Proof.Machine

open Sys2Proof.Config Sys2Proof.Claims

section Runs

variable {α β γ : Type}

theorem Run.mk_ok_bind (q : List Request) (v : α) (f : α → Run β) :
    (Run.bind ⟨q, .ok v⟩ f) = ⟨q ++ (f v).reqs, (f v).out⟩ := rfl

theorem Run.mk_error_bind (q : List Request) (e : Err) (f : α → Run β) :
    (Run.bind ⟨q, .error e⟩ f) = ⟨q, .error e⟩ := rfl

/-- Pseudocode can be cut at any place. -/
theorem Run.bind_assoc (m : Run α) (f : α → Run β) (g : β → Run γ) :
    (m.bind f).bind g = m.bind fun v => (f v).bind g := by
  cases hm : m.out with
  | error e => simp [Run.bind, hm]
  | ok v => cases hf : (f v).out <;> simp [Run.bind, hm, hf]

end Runs

section Rounds

variable {d : DesUnit} {k padb : Bytes} {l r : Nat → Bytes} {c : Nat → Vector Byte 8}

/-- The half of the padding in the statements is the model's, the padding being 12 bytes (R154, R156). -/
theorem padOf_eq (h : padb.length = 12) (i : Nat) : padOf padb i = padHalf padb i := by
  simp [padOf, padHalf, left, right, h]

/-- A round whose encryption succeeds and whose round number has a table (R156). -/
theorem tcRound_of_ok (hpad : padb.length = 12) {i : Nat} {x y z : Bytes} {b : Vector Byte 8}
    (hb : desE d k (y ++ padHalf padb i) = .ok b) (hz : permute (xorv (b.toList.take 2) x) i = .ok z) :
    tcRound d k padb i (x, y) = ⟨[.desE k (y ++ padHalf padb i)], .ok (y, z)⟩ := by
  have hz' : permute (xorv (left b.toList halfLen) x) i = .ok z := hz
  rw [tcRound, padOf_eq hpad, encrypt_of_ok hb, Run.mk_ok_bind, hz', Run.lift_ok, Run.ok_bind]
  rfl

/-- A round whose encryption fails (R113, R156). -/
theorem tcRound_of_fail (hpad : padb.length = 12) {i : Nat} {x y : Bytes} {code : Byte}
    (hb : desE d k (y ++ padHalf padb i) = .fail code) :
    tcRound d k padb i (x, y) = ⟨[.desE k (y ++ padHalf padb i)], .error ⟨.encryptFailed, .none, code⟩⟩ := by
  rw [tcRound, padOf_eq hpad, encrypt_of_fail hb, Run.mk_error_bind]

theorem tcRounds_append (is js : List Nat) (lr : Bytes × Bytes) :
    tcRounds d k padb (is ++ js) lr = (tcRounds d k padb is lr).bind (tcRounds d k padb js) := by
  induction is generalizing lr with
  | nil => simp [tcRounds]
  | cons i is ih => simp only [List.cons_append, tcRounds, ih, Run.bind_assoc]

/-- Succeeding rounds lead from halves to halves, with one request each (R136, R158). -/
theorem tcRounds_of_roundsBefore (hpad : padb.length = 12) (n : Nat) (h : RoundsBefore d k padb l r c (n + 1)) :
    tcRounds d k padb (List.range' 1 n) (l 1, r 1) = ⟨roundRequests k padb r n, .ok (l (n + 1), r (n + 1))⟩ := by
  induction n with
  | zero => rfl
  | succ n ih =>
    obtain ⟨hc, hl, hr⟩ := h (n + 1) (by omega) (by omega)
    have hbefore := ih fun i hlow hhigh => h i hlow (by omega)
    rw [List.range'_1_concat, tcRounds_append, hbefore, Run.mk_ok_bind, Nat.add_comm 1 n, tcRounds,
      tcRound_of_ok hpad hc hr, hl]
    simp [tcRounds, Run.mk_ok_bind, roundRequests, List.range_succ]

/-- The first failing encryption ends the rounds (R113, R156). -/
theorem tcRounds_of_fail (hpad : padb.length = 12) {n : Nat} {code : Byte} (is : List Nat)
    (h : RoundsBefore d k padb l r c (n + 1)) (hfail : desE d k (r (n + 1) ++ padHalf padb (n + 1)) = .fail code) :
    tcRounds d k padb (List.range' 1 n ++ (n + 1) :: is) (l 1, r 1) =
      ⟨roundRequests k padb r (n + 1), .error ⟨.encryptFailed, .none, code⟩⟩ := by
  rw [tcRounds_append, tcRounds_of_roundsBefore hpad n h, Run.mk_ok_bind, tcRounds, tcRound_of_fail hpad hfail,
    Run.mk_error_bind]
  simp [roundRequests, List.range_succ]

/-- Rounds 1 to 6, cut before round `n + 1`. -/
theorem sixRounds_split {n : Nat} (h : n < 6) :
    [1, 2, 3, 4, 5, 6] = List.range' 1 n ++ (n + 1) :: List.range' (n + 2) (5 - n) := by
  interval_cases n <;> rfl

end Rounds

section Coder

variable {p : Platform} {v k padb : Bytes} {t : Text} {l r : Nat → Bytes} {c : Nat → Vector Byte 8}

/-- On a 4-byte input and a user id that can be padded the time coder is its six rounds (R156). -/
theorem timeCoder_eq (hv : v.length = 4) (hpad : tcPad p.cpExt t = .ok padb) :
    timeCoder p v t k = (tcRounds p.des k padb [1, 2, 3, 4, 5, 6] (v.take 2, v.drop 2)).bind fun lr =>
      .ok (lr.1 ++ lr.2) := by
  have hright : right v halfLen = v.drop 2 := by simp [right, halfLen, hv]
  rw [timeCoder, needLength_of_eq (n := resultLen) hv, Run.ok_bind, hpad, Run.lift_ok, Run.ok_bind, hright]
  rfl

theorem timeCoder_of_length_ne (hv : v.length ≠ 4) : timeCoder p v t k = .err (.plain .tcInputLen) := by
  rw [timeCoder, needLength_of_ne (n := resultLen) hv, Run.err_bind]

theorem timeCoder_of_rounds (hv : v.length = 4) (hpad : tcPad p.cpExt t = .ok padb) (hl : l 1 = v.take 2)
    (hr : r 1 = v.drop 2) (h : RoundsBefore p.des k padb l r c 7) :
    timeCoder p v t k = ⟨roundRequests k padb r 6, .ok (l 7 ++ r 7)⟩ := by
  have hrounds := tcRounds_of_roundsBefore (tcPad_length _ hpad) 6 h
  rw [timeCoder_eq hv hpad, ← hl, ← hr]
  rw [show [1, 2, 3, 4, 5, 6] = List.range' 1 6 from rfl, hrounds, Run.mk_ok_bind]
  simp

theorem timeCoder_of_failing_round (hv : v.length = 4) (hpad : tcPad p.cpExt t = .ok padb) (hl : l 1 = v.take 2)
    (hr : r 1 = v.drop 2) {n : Nat} {code : Byte} (hlow : 1 ≤ n) (hhigh : n ≤ 6)
    (h : RoundsBefore p.des k padb l r c n) (hfail : desE p.des k (r n ++ padHalf padb n) = .fail code) :
    timeCoder p v t k = ⟨roundRequests k padb r n, .error ⟨.encryptFailed, .none, code⟩⟩ := by
  obtain ⟨m, rfl⟩ : ∃ m, n = m + 1 := ⟨n - 1, by omega⟩
  rw [timeCoder_eq hv hpad, ← hl, ← hr, sixRounds_split (n := m) (by omega),
    tcRounds_of_fail (tcPad_length _ hpad) _ h hfail, Run.mk_error_bind]

/-- `TCODE` past its key length and its user id (R157). -/
theorem tcodeRun_of_key {key opa : Bytes} (hkey : key.length = 8) :
    tcodeRun p key (some t) opa =
      (needLength .tcInputLen resultLen opa).bind fun _ => (Run.lift padErr (tcPad p.cpExt t)).bind fun _ =>
        (bindKey p.des key).bind fun _ => timeCoder p opa t key := by
  rw [tcodeRun, needLength_of_eq (n := blockLen) hkey, Run.ok_bind, needUid_some, Run.ok_bind]

/-- `TCODE` past its input's length as well. -/
theorem tcodeRun_of_lengths {key opa : Bytes} (hkey : key.length = 8) (hopa : opa.length = 4) :
    tcodeRun p key (some t) opa =
      (Run.lift padErr (tcPad p.cpExt t)).bind fun _ =>
        (bindKey p.des key).bind fun _ => timeCoder p opa t key := by
  rw [tcodeRun_of_key hkey, needLength_of_eq (n := resultLen) hopa, Run.ok_bind]

/-- `TCODE` past all its checks: the key is offered to the unit, then the time coder runs. -/
theorem tcodeRun_of_checks {key opa : Bytes} (hkey : key.length = 8) (hopa : opa.length = 4)
    (hpad : tcPad p.cpExt t = .ok padb) :
    tcodeRun p key (some t) opa = (bindKey p.des key).bind fun _ => timeCoder p opa t key := by
  rw [tcodeRun_of_lengths hkey hopa, hpad, Run.lift_ok, Run.ok_bind]

end Coder

section Injective

/-- Each table moves every bit, so the permutation loses nothing (R151, R152). -/
theorem permute_injective {x y z : Bytes} {i : Nat} (hx : permute x i = .ok z) (hy : permute y i = .ok z) : x = y := by
  obtain ⟨row, hxlen, hrow, hxz⟩ := permute_eq_ok hx
  obtain ⟨row', hylen, hrow', hyz⟩ := permute_eq_ok hy
  obtain rfl : row = row' := Option.some.inj (hrow.symm.trans hrow')
  obtain ⟨-, -, hperm⟩ := permRow_cases hrow
  have hagree : ∀ p ∈ row, bitAt (bitsOf x) p = bitAt (bitsOf y) p := List.map_inj_left.mp (hxz.symm.trans hyz)
  have hbits : bitsOf x = bitsOf y := by
    rw [← select_positions (v := bitsOf x) (by simp [hxlen]), ← select_positions (v := bitsOf y) (by simp [hylen])]
    exact List.map_congr_left fun p hp => hagree p (hperm.mem_iff.mpr hp)
  rw [← pack_bitsOf x, hbits, pack_bitsOf]

theorem xorv_left_injective {d a b : Bytes} (hlen : a.length = b.length) (h : xorv d a = xorv d b) : a = b := by
  refine List.ext_getElem hlen fun i ha hb => ?_
  have hbyte : (xorv d a).getD i 0 = (xorv d b).getD i 0 := by rw [h]
  rw [xorv_getD, xorv_getD, List.getD_eq_getElem _ _ ha, List.getD_eq_getElem _ _ hb] at hbyte
  exact (BitVec.xor_right_inj _).mp hbyte

variable {d : DesUnit} {k padb : Bytes}

/-- A round on two-byte halves can be undone (R156): the old `R` is the new `L`, and the block is built from it. -/
theorem tcRound_injective {i : Nat} {x y z : Bytes × Bytes} (hx : x.1.length = 2) (hy : y.1.length = 2)
    (hxz : (tcRound d k padb i x).out = .ok z) (hyz : (tcRound d k padb i y).out = .ok z) : x = y := by
  obtain ⟨hxr, -, cx, hcx, hpx⟩ := tcRound_out_ok hxz
  obtain ⟨hyr, -, cy, hcy, hpy⟩ := tcRound_out_ok hyz
  have hr : x.2 = y.2 := hxr.symm.trans hyr
  rw [hr, hcy] at hcx
  cases hcx
  have hl : x.1 = y.1 := xorv_left_injective (hx.trans hy.symm) (permute_injective hpx hpy)
  exact Prod.ext hl hr

theorem tcRounds_injective : ∀ (is : List Nat) {x y z : Bytes × Bytes}, x.1.length = 2 → x.2.length = 2 →
    y.1.length = 2 → y.2.length = 2 → (tcRounds d k padb is x).out = .ok z → (tcRounds d k padb is y).out = .ok z →
    x = y
  | [], _, _, _, _, _, _, _, hxz, hyz => by cases hxz; cases hyz; rfl
  | i :: is, x, y, z, hx1, hx2, hy1, hy2, hxz, hyz => by
    obtain ⟨x', hx', hxz⟩ := Run.bind_out_ok hxz
    obtain ⟨y', hy', hyz⟩ := Run.bind_out_ok hyz
    obtain ⟨hxl, hxr, -⟩ := tcRound_out_ok hx'
    obtain ⟨hyl, hyr, -⟩ := tcRound_out_ok hy'
    have hsame : x' = y' := tcRounds_injective is (hxl ▸ hx2) hxr (hyl ▸ hy2) hyr hxz hyz
    exact tcRound_injective hx1 hy1 hx' (hsame ▸ hy')

/-- The time coder is one to one on its input (R156). -/
theorem timeCoder_injective {p : Platform} {a b v : Bytes} {t : Text} (ha : (timeCoder p a t k).out = .ok v)
    (hb : (timeCoder p b t k).out = .ok v) : a = b := by
  obtain ⟨halen, -, padb, x, hpad, hx, hvx⟩ := timeCoder_out_ok ha
  obtain ⟨hblen, -, padb', y, hpad', hy, hvy⟩ := timeCoder_out_ok hb
  rw [hpad] at hpad'
  cases hpad'
  have hxlen := tcRounds_out_ok _ (by simp [halfLen, halen]) (by simp [halfLen, halen]) hx
  have hylen := tcRounds_out_ok _ (by simp [halfLen, hblen]) (by simp [halfLen, hblen]) hy
  obtain ⟨hfst, hsnd⟩ := List.append_inj (hvx.symm.trans hvy) (hxlen.1.trans hylen.1.symm)
  obtain rfl : x = y := Prod.ext hfst hsnd
  have hhalves := tcRounds_injective _ (by simp [halfLen, halen]) (by simp [halfLen, halen])
    (by simp [halfLen, hblen]) (by simp [halfLen, hblen]) hx hy
  obtain ⟨hleft, hright⟩ := Prod.ext_iff.mp hhalves
  simp only [right, halen, hblen] at hright
  rw [← List.take_append_drop halfLen a, ← List.take_append_drop halfLen b]
  exact congrArg₂ (· ++ ·) hleft hright

/-- A completing `TCODE` is the time coder under the bound key (R157). -/
theorem tcodeRun_out_ok_iff {p : Platform} {key opa w : Bytes} {uid : Option Text} :
    (tcodeRun p key uid opa).out = .ok w ↔
      key.length = 8 ∧ desKs p.des key = .ok ∧ ∃ t, uid = some t ∧ (timeCoder p opa t key).out = .ok w := by
  constructor
  · intro h
    obtain ⟨_, hkey, h⟩ := Run.bind_out_ok h
    obtain ⟨t, huid, h⟩ := Run.bind_out_ok h
    obtain ⟨_, -, h⟩ := Run.bind_out_ok h
    obtain ⟨_, -, h⟩ := Run.bind_out_ok h
    obtain ⟨_, hks, h⟩ := Run.bind_out_ok h
    refine ⟨needLength_out_ok hkey, bindKey_out_ok hks, t, ?_, h⟩
    cases uid with
    | none => cases huid
    | some x => cases huid; rfl
  · rintro ⟨hkey, hks, t, rfl, h⟩
    obtain ⟨hopa, -, padb, _, hpad, -⟩ := timeCoder_out_ok h
    rw [tcodeRun_of_checks hkey hopa hpad, bindKey_of_ok hks]
    exact h

end Injective

end Sys2Proof.Machine

namespace Sys2Proof.Proofs

open Sys2Proof.Machine Sys2Proof.Claims

/-- Settles O37: past its checks `TCODE` binds the key and runs six rounds that succeed. -/
theorem tcodeSixRounds : Obligations.TcodeSixRounds := by
  intro s t padb l r c hkey huid hopa hpad hks hl hr hrounds
  refine exec_of_runOf_value ?_
  rw [runOf, huid, tcodeRun_of_checks hkey hopa hpad, bindKey_of_ok hks, Run.mk_ok_bind,
    timeCoder_of_rounds hopa hpad hl hr hrounds]
  rfl

/-- Settles O38: each test fails where the ones before it pass, and a failing round ends the requests. -/
theorem tcodeErrors : Obligations.TcodeErrors := by
  intro s
  refine ⟨fun hkey => ?key, fun hkey huid => ?absent, fun t hkey huid => ⟨fun hopa => ?input, fun hopa =>
    ⟨fun hpad => ?unmappable, fun hpad => ?tooLong, fun padb hpad =>
      ⟨fun code hks => ?rejected, fun l r c n code hks hl hr hlow hhigh hrounds hfail => ?failed⟩⟩⟩⟩
  case key =>
    exact exec_of_runOf_plain (i := .tcode)
      (by rw [runOf, tcodeRun, needLength_of_ne (n := Config.blockLen) hkey, Run.err_bind])
  case absent =>
    exact exec_of_runOf_err (i := .tcode) (e := .about .uid .operandAbsent) (by
      rw [runOf, tcodeRun, needLength_of_eq (n := Config.blockLen) hkey, Run.ok_bind, huid, needUid_none,
        Run.err_bind])
  case input =>
    exact exec_of_runOf_plain (i := .tcode)
      (by rw [runOf, huid, tcodeRun_of_key hkey, needLength_of_ne (n := Config.resultLen) hopa, Run.err_bind])
  case unmappable =>
    exact exec_of_runOf_err (i := .tcode) (e := .about .uid .unmappableChar)
      (by rw [runOf, huid, tcodeRun_of_lengths hkey hopa, hpad]; rfl)
  case tooLong =>
    exact exec_of_runOf_plain (i := .tcode) (c := .padUidLen)
      (by rw [runOf, huid, tcodeRun_of_lengths hkey hopa, hpad]; rfl)
  case rejected =>
    refine exec_of_runOf_rejected ?_
    rw [runOf, huid, tcodeRun_of_checks hkey hopa hpad, bindKey_of_fail hks, Run.mk_error_bind]
  case failed =>
    refine exec_of_runOf_encryptFailed ?_
    rw [runOf, huid, tcodeRun_of_checks hkey hopa hpad, bindKey_of_ok hks, Run.mk_ok_bind,
      timeCoder_of_failing_round hopa hpad hl hr hlow hhigh hrounds hfail]
    rfl

/-- Settles O39: both runs are the time coder on the same user id and key, which is one to one. -/
theorem tcodeInjective : Obligations.TcodeInjective := by
  intro s a b v ha hb
  obtain ⟨-, -, t, huid, ha⟩ := tcodeRun_out_ok_iff.mp (yields_iff.mp ha)
  obtain ⟨-, -, t', huid', hb⟩ := tcodeRun_out_ok_iff.mp (yields_iff.mp hb)
  obtain rfl : t = t' := Option.some.inj (huid.symm.trans huid')
  exact timeCoder_injective ha hb

end Sys2Proof.Proofs

/-! The derivation, its validation, its six steps and their requests (44_orchestrator.md R134 to R137,
60_exceptions.md R191, R197), and the unit operations that do the same. -/

namespace Sys2Proof.Machine

open Sys2Proof.Config Sys2Proof.Claims

section Derivation

variable {p : Platform} {now : Time} {uid app khx : Option Text} {uidf appf kw : Bytes}

/-- `GEN` past its two identifiers and its key text: the key is offered to the unit (R134, R197). -/
theorem genSetup_of_valid (huid : normalizeIdentifier p.cpExt uid = .ok uidf)
    (happ : normalizeIdentifier p.cpExt app = .ok appf) (hkw : decodeKeyBytes khx = .ok kw) :
    genSetup p uid app khx = (bindKey p.des kw).bind fun _ => .ok (uidf, appf, kw) := by
  rw [genSetup, huid, Run.lift_ok, Run.ok_bind, happ, Run.lift_ok, Run.ok_bind, hkw, Run.lift_ok, Run.ok_bind]

/-- The six steps of a derivation, from the fields and the key on (R134). -/
def genSteps (p : Platform) (now : Time) (uid : Option Text) (f : Bytes × Bytes × Bytes) : Run Bytes :=
  (encrypt p.des f.2.2 f.1).bind fun r1 =>
  (encrypt p.des f.2.2 (xorv r1 f.2.1)).bind fun r2 =>
  (sample now).bind fun t =>
  (timeCoder p (timeMix p.timeWide (left r2 resultLen) t) (uid.getD []) f.2.2).bind fun r5 =>
  .ok (translateAll r5)

theorem generate_eq : generate p now uid app khx = (genSetup p uid app khx).bind (genSteps p now uid) := rfl

/-- A derivation whose inputs are valid and whose key is accepted: one request, then the steps. -/
theorem generate_of_bound (huid : normalizeIdentifier p.cpExt uid = .ok uidf)
    (happ : normalizeIdentifier p.cpExt app = .ok appf) (hkw : decodeKeyBytes khx = .ok kw)
    (hks : desKs p.des kw = .ok) :
    generate p now uid app khx =
      ⟨.desKs kw :: (genSteps p now uid (uidf, appf, kw)).reqs, (genSteps p now uid (uidf, appf, kw)).out⟩ := by
  rw [generate_eq, genSetup_of_valid huid happ hkw, bindKey_of_ok hks]
  rfl

variable {r1 r2 : Vector Byte 8}

theorem genSteps_of_failing_r1 {code : Byte} (h : desE p.des kw uidf = .fail code) :
    genSteps p now uid (uidf, appf, kw) = ⟨[.desE kw uidf], .error ⟨.encryptFailed, .none, code⟩⟩ := by
  rw [genSteps, encrypt_of_fail h, Run.mk_error_bind]

theorem genSteps_of_failing_r2 {code : Byte} (h₁ : desE p.des kw uidf = .ok r1)
    (h₂ : desE p.des kw (xorv r1.toList appf) = .fail code) :
    genSteps p now uid (uidf, appf, kw) =
      ⟨[.desE kw uidf, .desE kw (xorv r1.toList appf)], .error ⟨.encryptFailed, .none, code⟩⟩ := by
  rw [genSteps, encrypt_of_ok h₁, Run.mk_ok_bind, encrypt_of_fail h₂, Run.mk_error_bind]
  rfl

/-- Past its two encryptions a derivation samples the clock once and runs the time coder (R134). -/
theorem genSteps_of_encrypted (h₁ : desE p.des kw uidf = .ok r1) (h₂ : desE p.des kw (xorv r1.toList appf) = .ok r2) :
    genSteps p now uid (uidf, appf, kw) =
      Run.bind ⟨[.desE kw uidf, .desE kw (xorv r1.toList appf), .sample], .ok ()⟩ fun _ =>
        (timeCoder p (timeMix p.timeWide (r2.toList.take 4) now.toNat) (uid.getD []) kw).bind fun r5 =>
          .ok (translateAll r5) := by
  rw [genSteps, encrypt_of_ok h₁, Run.mk_ok_bind, encrypt_of_ok h₂, Run.mk_ok_bind]
  rfl

end Derivation

section Validation

variable {s : State}

/-- An identifier that `NORMID` rejects ends `GEN` in the same way (R191, R197). -/
theorem runOf_gen_of_bad_uid {c : Cause} (h : normalizeIdentifier s.plat.cpExt s.uid = .error c) :
    runOf .gen s = runOf (.normid .uid) s := by
  have hnorm : runOf (.normid .uid) s = .err (.about .uid c) := by
    rw [runOf, normidRun, State.selected, h, Run.lift_error, srcOfSel]
  rw [hnorm, runOf, generate_eq, genSetup, h, Run.lift_error, Run.err_bind, Run.err_bind]

theorem runOf_gen_of_bad_app {f : Bytes} {c : Cause} (huid : normalizeIdentifier s.plat.cpExt s.uid = .ok f)
    (h : normalizeIdentifier s.plat.cpExt s.app = .error c) : runOf .gen s = runOf (.normid .app) s := by
  have hnorm : runOf (.normid .app) s = .err (.about .app c) := by
    rw [runOf, normidRun, State.selected, h, Run.lift_error, srcOfSel]
  rw [hnorm, runOf, generate_eq, genSetup, huid, Run.lift_ok, Run.ok_bind, h, Run.lift_error, Run.err_bind,
    Run.err_bind]

/-- With valid identifiers `GEN` begins as `DECKEY` does, so it raises what `DECKEY` raises (R197). -/
theorem runOf_gen_of_bad_key {f a : Bytes} {e : Err} (huid : normalizeIdentifier s.plat.cpExt s.uid = .ok f)
    (happ : normalizeIdentifier s.plat.cpExt s.app = .ok a) (h : (runOf .deckey s).out = .error e) :
    runOf .gen s = runOf .deckey s := by
  cases hk : decodeKeyBytes s.khx with
  | error c =>
    have hkey : runOf .deckey s = .err (.about .khx c) := by
      rw [runOf, deckeyRun, hk, Run.lift_error, Run.err_bind]
    rw [hkey, runOf, generate_eq, genSetup, huid, Run.lift_ok, Run.ok_bind, happ, Run.lift_ok, Run.ok_bind, hk,
      Run.lift_error, Run.err_bind, Run.err_bind]
  | ok k =>
    have hkey : runOf .deckey s = (bindKey s.plat.des k).bind fun _ => .ok k := by
      rw [runOf, deckeyRun, hk, Run.lift_ok, Run.ok_bind]
    rw [hkey] at h ⊢
    rw [runOf, generate_eq, genSetup_of_valid huid happ hk]
    rcases bindKey_cases s.plat.des k with ⟨-, hbind⟩ | ⟨code, -, hbind⟩ <;> rw [hbind] at h ⊢
    · cases h
    · rfl

/-- A command that does not complete raised an error. -/
theorem exists_error_of_status_ne {i : Instr} {t : State} (hexec : exec i s = .next t) (hstatus : t.status ≠ 0x08) :
    ∃ e, (runOf i s).out = .error e := by
  cases hout : (runOf i s).out with
  | error e => exact ⟨e, rfl⟩
  | ok v =>
    rw [exec_of_runOf_out_ok hout] at hexec
    cases hexec
    exact absurd rfl hstatus

/-- Operations that run the same pseudocode end in the same state. -/
theorem exec_eq_of_runOf_eq {i j : Instr} (h : runOf i s = runOf j s) : exec i s = exec j s := by
  rw [exec_eq, exec_eq, h]

end Validation

section Sequence

/-- When two pieces of pseudocode in sequence give a value. -/
theorem Run.bind_out_ok_iff {α β : Type} {m : Run α} {f : α → Run β} {w : β} :
    (m.bind f).out = .ok w ↔ ∃ v, m.out = .ok v ∧ (f v).out = .ok w := by
  refine ⟨Run.bind_out_ok, ?_⟩
  rintro ⟨v, hm, hf⟩
  simpa [Run.bind_of_ok f hm] using hf

variable {p : Platform} {now : Time} {uid app khx : Option Text}

theorem normidRun_out_ok_iff {src : Src} {f : Bytes} :
    (normidRun p src uid).out = .ok f ↔ normalizeIdentifier p.cpExt uid = .ok f := by
  refine ⟨Run.lift_out_ok, fun h => ?_⟩
  rw [normidRun, h]
  rfl

theorem deckeyRun_out_ok_iff {k : Bytes} :
    (deckeyRun p khx).out = .ok k ↔ decodeKeyBytes khx = .ok k ∧ desKs p.des k = .ok := by
  constructor
  · intro h
    obtain ⟨k', hk, h⟩ := Run.bind_out_ok h
    obtain ⟨_, hks, h⟩ := Run.bind_out_ok h
    cases h
    exact ⟨Run.lift_out_ok hk, bindKey_out_ok hks⟩
  · rintro ⟨hk, hks⟩
    rw [deckeyRun, hk, Run.lift_ok, Run.ok_bind, bindKey_of_ok hks]
    rfl

theorem encrRun_out_ok_iff {key b c : Bytes} :
    (encrRun p key b).out = .ok c ↔
      key.length = 8 ∧ b.length = 8 ∧ desKs p.des key = .ok ∧ (encrypt p.des key b).out = .ok c := by
  constructor
  · intro h
    obtain ⟨_, hkey, h⟩ := Run.bind_out_ok h
    obtain ⟨_, hb, h⟩ := Run.bind_out_ok h
    obtain ⟨_, hks, h⟩ := Run.bind_out_ok h
    exact ⟨needLength_out_ok hkey, needLength_out_ok hb, bindKey_out_ok hks, h⟩
  · rintro ⟨hkey, hb, hks, h⟩
    rw [encrRun_of_lengths hkey hb, bindKey_of_ok hks]
    exact h

theorem tmixRun_out_ok_iff {b v : Bytes} :
    (tmixRun p now b).out = .ok v ↔ b.length = 4 ∧ timeMix p.timeWide b now.toNat = v := by
  constructor
  · intro h
    obtain ⟨_, hb, h⟩ := Run.bind_out_ok h
    cases h
    exact ⟨needLength_out_ok hb, rfl⟩
  · rintro ⟨hb, rfl⟩
    rw [tmixRun, needLength_of_eq (n := resultLen) hb, Run.ok_bind]
    rfl

theorem xlatRun_out_ok_iff {b v : Bytes} : (xlatRun b).out = .ok v ↔ b.length = 4 ∧ translateAll b = v := by
  constructor
  · intro h
    obtain ⟨_, hb, h⟩ := Run.bind_out_ok h
    cases h
    exact ⟨needLength_out_ok hb, rfl⟩
  · rintro ⟨hb, rfl⟩
    rw [xlatRun, needLength_of_eq (n := resultLen) hb, Run.ok_bind]
    rfl

theorem genSetup_out_ok_iff {f a k : Bytes} :
    (genSetup p uid app khx).out = .ok (f, a, k) ↔ normalizeIdentifier p.cpExt uid = .ok f ∧
      normalizeIdentifier p.cpExt app = .ok a ∧ decodeKeyBytes khx = .ok k ∧ desKs p.des k = .ok := by
  constructor
  · intro h
    obtain ⟨hf, ha, hk, hks, -⟩ := genSetup_out_ok h
    exact ⟨hf, ha, hk, hks⟩
  · rintro ⟨hf, ha, hk, hks⟩
    rw [genSetup_of_valid hf ha hk, bindKey_of_ok hks]
    rfl

theorem genSteps_out_ok_iff {f a k v : Bytes} :
    (genSteps p now uid (f, a, k)).out = .ok v ↔ ∃ r1 r2 r5, (encrypt p.des k f).out = .ok r1 ∧
      (encrypt p.des k (xorv r1 a)).out = .ok r2 ∧
      (timeCoder p (timeMix p.timeWide (r2.take 4) now.toNat) (uid.getD []) k).out = .ok r5 ∧ translateAll r5 = v := by
  constructor
  · intro h
    obtain ⟨r1, h1, h⟩ := Run.bind_out_ok h
    obtain ⟨r2, h2, h⟩ := Run.bind_out_ok h
    obtain ⟨t, ht, h⟩ := Run.bind_out_ok h
    obtain ⟨r5, h5, hv⟩ := Run.bind_out_ok h
    cases ht
    cases hv
    exact ⟨r1, r2, r5, h1, h2, h5, rfl⟩
  · rintro ⟨r1, r2, r5, h1, h2, h5, rfl⟩
    exact Run.bind_out_ok_iff.mpr ⟨r1, h1, Run.bind_out_ok_iff.mpr ⟨r2, h2, Run.bind_out_ok_iff.mpr
      ⟨_, sample_out now, Run.bind_out_ok_iff.mpr ⟨r5, h5, rfl⟩⟩⟩⟩

end Sequence

/-- A window's character is a letter or a digit (R170). -/
theorem translateChar_alphabet (v : Bits) (start : Nat) :
    (0x41 ≤ (translateChar v start).toNat ∧ (translateChar v start).toNat ≤ 0x5A) ∨
    (0x30 ≤ (translateChar v start).toNat ∧ (translateChar v start).toNat ≤ 0x39) := by
  have hlt : windowValue v start % 36 < 36 := Nat.mod_lt _ (by decide)
  rw [translateChar, alphabet_toNat hlt]
  split <;> omega

end Sys2Proof.Machine

namespace Sys2Proof.Proofs

open Sys2Proof.Machine Sys2Proof.Claims

/-- Settles O42: every step succeeds and adds its requests. -/
theorem genCompletes : Obligations.GenCompletes := by
  intro s t uidf appf kw padb r4 r1 r2 l r c huid huidf happf hkw hks h1 h2 hmix hr4 hpad hl hr hrounds
  refine exec_of_runOf_value ?_
  rw [runOf, generate_of_bound huidf happf hkw hks, genSteps_of_encrypted h1 h2, hmix, huid, Option.getD_some,
    timeCoder_of_rounds hr4 hpad hl hr hrounds]
  simp [Run.mk_ok_bind]

/-- Settles O43: the first step that fails ends the command with its error, the requests before it made. -/
theorem genAborts : Obligations.GenAborts := by
  intro s uidf appf kw huidf happf hkw hks
  refine ⟨fun code h1 => ?first, fun r1 h1 => ⟨fun code h2 => ?second, fun r2 r4 h2 hmix =>
    ⟨fun hr4 => ?input, fun t padb l r c n code hr4 huid hpad hl hr hlow hhigh hrounds hfail => ?round⟩⟩⟩
  case first =>
    refine exec_of_runOf_encryptFailed ?_
    rw [runOf, generate_of_bound huidf happf hkw hks, genSteps_of_failing_r1 h1]
  case second =>
    refine exec_of_runOf_encryptFailed ?_
    rw [runOf, generate_of_bound huidf happf hkw hks, genSteps_of_failing_r2 h1 h2]
  case input =>
    refine exec_of_runOf_plain_after (i := .gen) (c := .tcInputLen) ?_
    rw [runOf, generate_of_bound huidf happf hkw hks, genSteps_of_encrypted h1 h2, hmix, timeCoder_of_length_ne hr4]
    rfl
  case round =>
    refine exec_of_runOf_encryptFailed ?_
    rw [runOf, generate_of_bound huidf happf hkw hks, genSteps_of_encrypted h1 h2, hmix, huid, Option.getD_some,
      timeCoder_of_failing_round hr4 hpad hl hr hlow hhigh hrounds hfail]
    simp [Run.mk_ok_bind, Run.mk_error_bind]

/-- Settles O44: the failing validation is the run of the unit operation, so both end in one state. -/
theorem genFailsLikeItsUnits : Obligations.GenFailsLikeItsUnits := by
  intro s t
  refine ⟨fun hexec hstatus => ?uid, fun f hf hexec hstatus => ?app, fun f a hf ha hexec hstatus => ?key⟩
  case uid =>
    obtain ⟨e, he⟩ := exists_error_of_status_ne hexec hstatus
    obtain ⟨c, hc, -⟩ := Run.lift_out_error he
    rw [exec_eq_of_runOf_eq (runOf_gen_of_bad_uid hc), hexec]
  case app =>
    have huid := normidRun_out_ok_iff.mp (yields_iff.mp hf)
    obtain ⟨e, he⟩ := exists_error_of_status_ne hexec hstatus
    obtain ⟨c, hc, -⟩ := Run.lift_out_error he
    rw [exec_eq_of_runOf_eq (runOf_gen_of_bad_app huid hc), hexec]
  case key =>
    have huid := normidRun_out_ok_iff.mp (yields_iff.mp hf)
    have happ := normidRun_out_ok_iff.mp (yields_iff.mp ha)
    obtain ⟨e, he⟩ := exists_error_of_status_ne hexec hstatus
    rw [exec_eq_of_runOf_eq (runOf_gen_of_bad_key huid happ he), hexec]

/-- Settles O45: a token is a translation, of eight characters of the alphabet. -/
theorem genTokenAlphabet : Obligations.GenTokenAlphabet := by
  intro s v hyields
  obtain ⟨r5, rfl⟩ := generate_out_ok (yields_iff.mp hyields)
  refine ⟨translateAll_length r5, fun c hc => ?_⟩
  obtain ⟨start, -, rfl⟩ := List.mem_map.mp hc
  exact translateChar_alphabet (bitsOf r5) start

/-- Settles O46: both sides ask that the same functions give a value, link by link; the lengths that the unit operations
check hold of what the links before them give. -/
theorem genFromUnitOperations : Obligations.GenFromUnitOperations := by
  intro s v
  simp only [yields_iff, runOf]
  constructor
  · intro h
    obtain ⟨⟨f, a, k⟩, hsetup, hsteps⟩ := Run.bind_out_ok h
    obtain ⟨hf, ha, hk, hks⟩ := genSetup_out_ok_iff.mp hsetup
    obtain ⟨r1, r2, r5, h1, h2, h5, hv⟩ := genSteps_out_ok_iff.mp hsteps
    have hklen := decodeKeyBytes_length hk
    have halen := normalizeIdentifier_length _ ha
    have hr2 := encrypt_out_ok h2
    obtain ⟨hr4, hr5, -⟩ := timeCoder_out_ok h5
    refine ⟨f, a, k, r1, xorv r1 a, r2, timeMix s.plat.timeWide (r2.take 4) s.now.toNat, r5,
      normidRun_out_ok_iff.mpr hf, normidRun_out_ok_iff.mpr ha, deckeyRun_out_ok_iff.mpr ⟨hk, hks⟩,
      encrRun_out_ok_iff.mpr ⟨hklen, normalizeIdentifier_length _ hf, hks, h1⟩, rfl,
      encrRun_out_ok_iff.mpr ⟨hklen, ?_, hks, h2⟩, tmixRun_out_ok_iff.mpr ⟨by simp [hr2], rfl⟩,
      tcodeRun_out_ok_iff.mpr ⟨hklen, hks, ?_⟩, xlatRun_out_ok_iff.mpr ⟨hr5, hv⟩⟩
    · simp [encrypt_out_ok h1, halen]
    · cases huid : s.uid with
      | none => rw [huid] at hf; cases hf
      | some t => rw [huid] at h5; exact ⟨t, rfl, h5⟩
  · rintro ⟨f, a, k, r1, r2a, r2, r4, r5, hf, ha, hk, h1, h2a, h2, h4, h5, hv⟩
    obtain ⟨hk, hks⟩ := deckeyRun_out_ok_iff.mp hk
    obtain ⟨-, -, -, h1⟩ := encrRun_out_ok_iff.mp h1
    obtain rfl : xorv r1 a = r2a := Except.ok.inj h2a
    obtain ⟨-, -, -, h2⟩ := encrRun_out_ok_iff.mp h2
    obtain ⟨-, rfl⟩ := tmixRun_out_ok_iff.mp h4
    obtain ⟨-, -, t, huid, h5⟩ := tcodeRun_out_ok_iff.mp h5
    obtain ⟨-, rfl⟩ := xlatRun_out_ok_iff.mp hv
    have huid : s.uid = some t := huid
    refine Run.bind_out_ok_iff.mpr ⟨(f, a, k), genSetup_out_ok_iff.mpr
      ⟨normidRun_out_ok_iff.mp hf, normidRun_out_ok_iff.mp ha, hk, hks⟩, genSteps_out_ok_iff.mpr
      ⟨r1, r2, r5, h1, h2, ?_, rfl⟩⟩
    rw [huid]
    exact h5

end Sys2Proof.Proofs

/-! The sequencer (10_state.md R32, R33, 45_time_coder.md R158): a command tick by tick ends where the command whole
does, its counters only advance, and it touches nothing that a reset keeps. -/

namespace Sys2Proof.Machine

open Sys2Proof.Config Sys2Proof.Claims

theorem Run.bind_ok {α : Type} (m : Run α) : m.bind .ok = m := by
  obtain ⟨q, out⟩ := m
  cases out <;> simp [Run.bind]

section Ticks

/-- `s` in the middle of a command: with scratch in use and some requests made. -/
def inCommand (s : State) (x : Scratch) (q : List Request) : State := { s with scratch := x, requests := q }

/-- At most `n` ticks from here end the command as the rest of its pseudocode ends it, after the requests `q`. -/
def EndsAs (f : State → Tick) (n : Nat) (s : State) (q : List Request) (tick : Tick) (rest : Run Bytes) : Prop :=
  runTicks f n tick = .over (s.finish ⟨q ++ rest.reqs, rest.out⟩)

variable {f : State → Tick} {n : Nat} {s : State} {x : Scratch} {q : List Request} {rest : Run Bytes}

theorem runTicks_over (f : State → Tick) (n : Nat) (s : State) : runTicks f n (.over s) = .over s := by
  cases n <;> rfl

/-- A running command that ends within `n` ticks of its next state ends within `n + 1` of this one. -/
theorem endsAs_running (h : EndsAs f n s q (f (inCommand s x q)) rest) :
    EndsAs f (n + 1) s q (.running (inCommand s x q)) rest := h

theorem endsAs_over {v : Bytes} : EndsAs f n s q (.over ((inCommand s x q).complete v q)) (.ok v) := by
  rw [EndsAs, runTicks_over, Run.ok_reqs, List.append_nil]
  rfl

/-- A tick goes on with a piece of pseudocode as the whole command does: the piece's error ends both (R196). -/
theorem endsAs_advance {α : Type} {m : Run α} {g : α → State → Tick} {h : α → Run Bytes}
    (hg : ∀ v, EndsAs f n s (q ++ m.reqs) (g v (inCommand s x (q ++ m.reqs))) (h v)) :
    EndsAs f n s q (advance (inCommand s x q) m g) (m.bind h) := by
  cases hm : m.out with
  | error e =>
    rw [EndsAs, advance, hm, runTicks_over, Run.bind_of_error h hm, finish_of_error s rfl]
    rfl
  | ok v =>
    have hv := hg v
    rw [EndsAs, List.append_assoc] at hv
    rw [EndsAs, advance, hm, Run.bind_of_ok h hm, ← hv]
    rfl

end Ticks

section Rounds

/-- The time coder of one command in progress: its step, its key in scratch and its padding stand still, and round `i`
is next on the halves `lr`. -/
structure AtRound (step : Nat) (kw padb : Bytes) (i : Nat) (lr : Bytes × Bytes) (x : Scratch) : Prop where
  step : x.step = step
  kw : x.kw = kw
  padb : x.padb = padb
  rnd : x.rnd = i
  l : x.l = lr.1
  r : x.r = lr.2

variable {f : State → Tick} {n : Nat} {s : State} {k kw padb : Bytes} {step : Nat}

/-- The first of some rounds, in the pieces in which a tick runs it (R156). -/
theorem tcRounds_cons_bind {d : DesUnit} {β : Type} (i : Nat) (is : List Nat) (lr : Bytes × Bytes)
    (h : Bytes × Bytes → Run β) :
    (tcRounds d k padb (i :: is) lr).bind h =
      (encrypt d k (lr.2 ++ padOf padb i)).bind fun c =>
        (Run.lift .plain (permute (xorv (left c halfLen) lr.1) i)).bind fun r =>
          (tcRounds d k padb is (lr.2, r)).bind h := by
  simp only [tcRounds, tcRound, Run.bind_assoc, Run.ok_bind]

/-- Round after round the ticks follow the rounds of the whole command, up to what comes after the last one. -/
theorem endsAs_rounds {h : Bytes × Bytes → Run Bytes} {last : Nat}
    (hf : ∀ i lr x q, i ≤ last → 1 ≤ i → AtRound step kw padb i lr x → f (inCommand s x q) = tcTick k (inCommand s x q))
    (hlast : ∀ lr x q, AtRound step kw padb (last + 1) lr x → EndsAs f n s q (.running (inCommand s x q)) (h lr)) :
    ∀ (m i : Nat) (lr : Bytes × Bytes) (x : Scratch) (q : List Request), 1 ≤ i → i + m = last + 1 →
      AtRound step kw padb i lr x →
      EndsAs f (m + n) s q (.running (inCommand s x q))
        ((tcRounds s.plat.des k padb (List.range' i m) lr).bind h) := by
  intro m
  induction m with
  | zero =>
    intro i lr x q _ hi hx
    obtain rfl : i = last + 1 := hi
    rw [Nat.zero_add, List.range'_zero, tcRounds, Run.ok_bind]
    exact hlast lr x q hx
  | succ m ih =>
    intro i lr x q hlow hi hx
    rw [List.range'_succ, tcRounds_cons_bind, Nat.add_right_comm]
    refine endsAs_running ?_
    rw [hf i lr x q (by omega) hlow hx, tcTick]
    obtain ⟨hstep, hkw, rfl, rfl, hl, hr⟩ := hx
    obtain rfl : lr = (x.l, x.r) := Prod.ext hl.symm hr.symm
    refine endsAs_advance fun c => ?_
    refine endsAs_advance fun r => ?_
    exact ih (x.rnd + 1) (x.r, r) _ _ (by omega) (by omega) ⟨hstep, hkw, rfl, rfl, rfl, rfl⟩

/-- The time coder's start and its rounds, in the pieces in which the ticks run them (R156). -/
theorem timeCoder_bind {p : Platform} {v : Bytes} {t : Text} (h : Bytes → Run Bytes) :
    (timeCoder p v t k).bind h =
      ((needLength .tcInputLen resultLen v).bind fun _ => Run.lift padErr (tcPad p.cpExt t)).bind fun padb =>
        (tcRounds p.des k padb (List.range' 1 6) (left v halfLen, right v halfLen)).bind fun lr =>
          h (lr.1 ++ lr.2) := by
  simp only [timeCoder, Run.bind_assoc, Run.ok_bind]
  rfl

end Rounds

section Equations

variable {s : State}

theorem genTick_one (h : s.scratch.step = 1) :
    genTick s = advance s (encrypt s.plat.des s.scratch.kw s.scratch.uidf) fun r1 t =>
      .running { t with scratch := { t.scratch with r1 := r1, step := 2 } } := by
  simp only [genTick, h]

theorem genTick_two (h : s.scratch.step = 2) :
    genTick s = advance s (encrypt s.plat.des s.scratch.kw (xorv s.scratch.r1 s.scratch.appf)) fun r2 t =>
      .running { t with
        scratch := { t.scratch with r2a := xorv s.scratch.r1 s.scratch.appf, r2 := r2, step := 3 } } := by
  simp only [genTick, h]

theorem genTick_three (h : s.scratch.step = 3) :
    genTick s = .running { s with scratch := { s.scratch with r3 := left s.scratch.r2 resultLen, step := 4 } } := by
  simp only [genTick, h]

theorem genTick_four (h : s.scratch.step = 4) :
    genTick s = advance s (sample s.now) fun now t =>
      .running { t with
        scratch :=
          { t.scratch with tb := timeBytes now, r4 := timeMix s.plat.timeWide s.scratch.r3 now, step := 5 } } := by
  simp only [genTick, h]

theorem genTick_five_zero (h : s.scratch.step = 5) (hrnd : s.scratch.rnd = 0) :
    genTick s = tcStart s.scratch.r4 (s.uid.getD []) s := by
  simp only [genTick, h, hrnd]

theorem genTick_five_seven (h : s.scratch.step = 5) (hrnd : s.scratch.rnd = 7) :
    genTick s = .running { s with scratch := { s.scratch with r5 := s.scratch.l ++ s.scratch.r, step := 6 } } := by
  simp only [genTick, h, hrnd]

theorem genTick_five_round (h : s.scratch.step = 5) (h₀ : s.scratch.rnd ≠ 0) (h₇ : s.scratch.rnd ≠ 7) :
    genTick s = tcTick s.scratch.kw s := by
  simp only [genTick, h]

theorem genTick_six (h : s.scratch.step = 6) :
    genTick s = .over (s.complete (translateAll s.scratch.r5) s.requests) := by
  simp only [genTick, h]

/-- Outside its six steps `GEN` does not run (R33). -/
theorem genTick_outside (h : s.scratch.step = 0 ∨ 7 ≤ s.scratch.step) : genTick s = .over s := by
  simp only [genTick]
  split
  case h_7 => rfl
  all_goals omega

theorem tcodeTick_zero (h : s.scratch.rnd = 0) : tcodeTick s = .over s := by
  simp only [tcodeTick, h]

theorem tcodeTick_seven (h : s.scratch.rnd = 7) :
    tcodeTick s = .over (s.complete (s.scratch.l ++ s.scratch.r) s.requests) := by
  simp only [tcodeTick, h]

theorem tcodeTick_round (h₀ : s.scratch.rnd ≠ 0) (h₇ : s.scratch.rnd ≠ 7) : tcodeTick s = tcTick s.key s := by
  unfold tcodeTick
  split <;> simp_all

end Equations

section Commands

variable {s : State} {x : Scratch} {q : List Request}

theorem gen_endsAs_six (h : x.step = 6) :
    EndsAs genTick 1 s q (.running (inCommand s x q)) (.ok (translateAll x.r5)) := by
  refine endsAs_running ?_
  rw [genTick_six h]
  exact endsAs_over

/-- The time coder of a derivation, from its start to the token (R134, R156). -/
theorem gen_endsAs_five (h : x.step = 5) (hrnd : x.rnd = 0) :
    EndsAs genTick 9 s q (.running (inCommand s x q))
      ((timeCoder s.plat x.r4 (s.uid.getD []) x.kw).bind fun r5 => .ok (translateAll r5)) := by
  refine endsAs_running ?_
  rw [genTick_five_zero h hrnd, timeCoder_bind]
  refine endsAs_advance fun padb => ?_
  refine endsAs_rounds (step := 5) (kw := x.kw) (padb := padb) (last := 6) (n := 2) ?_ ?_ 6 1 _ _ _ (by omega) rfl
    ⟨h, rfl, rfl, rfl, rfl, rfl⟩
  · intro i lr y q' hhigh hlow hy
    have hround : (inCommand s y q').scratch.rnd = i := hy.rnd
    have hkw : (inCommand s y q').scratch.kw = x.kw := hy.kw
    rw [genTick_five_round hy.step (by omega) (by omega), hkw]
  · intro lr y q' hy
    refine endsAs_running ?_
    rw [genTick_five_seven (s := inCommand s y q') hy.step hy.rnd, ← hy.l, ← hy.r]
    exact gen_endsAs_six rfl

theorem gen_endsAs_four (h : x.step = 4) (hrnd : x.rnd = 0) :
    EndsAs genTick 10 s q (.running (inCommand s x q)) ((sample s.now).bind fun t =>
      (timeCoder s.plat (timeMix s.plat.timeWide x.r3 t) (s.uid.getD []) x.kw).bind fun r5 =>
        .ok (translateAll r5)) := by
  refine endsAs_running ?_
  rw [genTick_four h]
  refine endsAs_advance fun t => ?_
  exact gen_endsAs_five rfl hrnd

theorem gen_endsAs_three (h : x.step = 3) (hrnd : x.rnd = 0) :
    EndsAs genTick 11 s q (.running (inCommand s x q)) ((sample s.now).bind fun t =>
      (timeCoder s.plat (timeMix s.plat.timeWide (left x.r2 resultLen) t) (s.uid.getD []) x.kw).bind fun r5 =>
        .ok (translateAll r5)) := by
  refine endsAs_running ?_
  rw [genTick_three h]
  exact gen_endsAs_four rfl hrnd

theorem gen_endsAs_one (h : x.step = 1) (hrnd : x.rnd = 0) :
    EndsAs genTick 13 s q (.running (inCommand s x q)) (genSteps s.plat s.now s.uid (x.uidf, x.appf, x.kw)) := by
  refine endsAs_running ?_
  rw [genTick_one h]
  refine endsAs_advance fun r1 => ?_
  refine endsAs_running ?_
  rw [genTick_two rfl]
  refine endsAs_advance fun r2 => ?_
  exact gen_endsAs_three rfl hrnd

theorem gen_endsAs (s : State) :
    EndsAs genTick 13 s [] (genStart s) (generate s.plat s.now s.uid s.app s.khx) := by
  rw [generate_eq]
  refine endsAs_advance (x := Scratch.cleared) fun f => ?_
  exact gen_endsAs_one rfl rfl

/-- The checks of `TCODE` and the binding of its key, before the time coder (R157). -/
def tcodeChecks (s : State) : Run Text :=
  (needLength .operandLength blockLen s.key).bind fun _ =>
  (needUid s.uid).bind fun t =>
  (needLength .tcInputLen resultLen s.opa).bind fun _ =>
  (Run.lift padErr (tcPad s.plat.cpExt t)).bind fun _ =>
  (bindKey s.plat.des s.key).bind fun _ =>
  .ok t

theorem tcodeStart_eq (s : State) :
    tcodeStart s = advance (begin s) (tcodeChecks s) fun t u => tcStart s.opa t u := rfl

theorem tcodeRun_eq (s : State) :
    tcodeRun s.plat s.key s.uid s.opa = (tcodeChecks s).bind fun t =>
      (timeCoder s.plat s.opa t s.key).bind .ok := by
  simp only [tcodeRun, tcodeChecks, Run.bind_assoc, Run.ok_bind, Run.bind_ok]

theorem tcode_endsAs (s : State) :
    EndsAs tcodeTick 7 s [] (tcodeStart s) (tcodeRun s.plat s.key s.uid s.opa) := by
  rw [tcodeRun_eq, tcodeStart_eq]
  refine endsAs_advance (x := Scratch.cleared) fun t => ?_
  rw [timeCoder_bind]
  refine endsAs_advance fun padb => ?_
  refine endsAs_rounds (step := 0) (kw := []) (padb := padb) (last := 6) (n := 1) ?_ ?_ 6 1 _ _ _ (by omega) rfl
    ⟨rfl, rfl, rfl, rfl, rfl, rfl⟩
  · intro i lr y q' hhigh hlow hy
    have hround : (inCommand s y q').scratch.rnd = i := hy.rnd
    rw [tcodeTick_round (by omega) (by omega)]
    rfl
  · intro lr y q' hy
    refine endsAs_running ?_
    rw [tcodeTick_seven (s := inCommand s y q') hy.rnd, ← hy.l, ← hy.r]
    exact endsAs_over

end Commands

section Counters

variable {s t : State}

/-- A piece of pseudocode after which the command still runs gave a value. -/
theorem advance_running {α : Type} {m : Run α} {g : α → State → Tick} (h : advance s m g = .running t) :
    ∃ v, m.out = .ok v ∧ g v { s with requests := s.requests ++ m.reqs } = .running t := by
  cases hm : m.out with
  | error e => simp [advance, hm] at h
  | ok v => exact ⟨v, rfl, by simpa [advance, hm] using h⟩

theorem tcStart_running {v : Bytes} {u : Text} (h : tcStart v u s = .running t) :
    t.scratch.step = s.scratch.step ∧ t.scratch.rnd = 1 := by
  obtain ⟨padb, -, h⟩ := advance_running h
  cases h
  exact ⟨rfl, rfl⟩

/-- A round that does not end the command has a table, so it is one of the six, and `RND` counts on (R33, R158). -/
theorem tcTick_running {k : Bytes} (h : tcTick k s = .running t) :
    t.scratch.step = s.scratch.step ∧ t.scratch.rnd = s.scratch.rnd + 1 ∧ t.scratch.rnd ≤ 7 := by
  rw [tcTick] at h
  obtain ⟨c, -, h⟩ := advance_running h
  obtain ⟨r, hr, h⟩ := advance_running h
  cases h
  obtain ⟨row, -, hrow, -⟩ := permute_eq_ok (Run.lift_out_ok hr)
  have hmax : s.scratch.rnd ≤ 6 := ((permRow_isSome_iff _).mp ⟨row, hrow⟩).2
  exact ⟨rfl, rfl, Nat.succ_le_succ hmax⟩

theorem genStart_running (h : genStart s = .running t) : t.scratch.step = 1 ∧ t.scratch.rnd = 0 := by
  obtain ⟨f, -, h⟩ := advance_running h
  cases h
  exact ⟨rfl, rfl⟩

theorem tcodeStart_running (h : tcodeStart s = .running t) : t.scratch.step = 0 ∧ t.scratch.rnd = 1 := by
  obtain ⟨u, -, h⟩ := advance_running h
  exact tcStart_running h

/-- A tick that moves `STEP` on and leaves `RND`, or the reverse (R33). -/
def AdvancesOne (s t : State) : Prop :=
  (t.scratch.step = s.scratch.step + 1 ∧ t.scratch.rnd = s.scratch.rnd ∧ t.scratch.step ≤ 6) ∨
  (t.scratch.step = s.scratch.step ∧ t.scratch.rnd = s.scratch.rnd + 1 ∧ t.scratch.rnd ≤ 7)

/-- A step whose only move is from `STEP` = `n` to the next one. -/
theorem advancesOne_of_step {n : Nat} (hn : n ≤ 5) (hs : s.scratch.step = n) (ht : t.scratch.step = n + 1)
    (hrnd : t.scratch.rnd = s.scratch.rnd) : AdvancesOne s t :=
  .inl ⟨by omega, hrnd, by omega⟩

theorem genTick_running_five (hstep : s.scratch.step = 5) (h : genTick s = .running t) : AdvancesOne s t := by
  by_cases h₀ : s.scratch.rnd = 0
  · rw [genTick_five_zero hstep h₀] at h
    obtain ⟨hs, hr⟩ := tcStart_running h
    exact .inr ⟨hs, by omega, by omega⟩
  · by_cases h₇ : s.scratch.rnd = 7
    · rw [genTick_five_seven hstep h₇] at h
      cases h
      exact advancesOne_of_step (by decide) hstep rfl rfl
    · rw [genTick_five_round hstep h₀ h₇] at h
      exact .inr (tcTick_running h)

theorem genTick_running (h : genTick s = .running t) : AdvancesOne s t := by
  have hsteps : s.scratch.step = 1 ∨ s.scratch.step = 2 ∨ s.scratch.step = 3 ∨ s.scratch.step = 4 ∨
      s.scratch.step = 5 ∨ s.scratch.step = 6 ∨ (s.scratch.step = 0 ∨ 7 ≤ s.scratch.step) := by omega
  rcases hsteps with h₁ | h₂ | h₃ | h₄ | h₅ | h₆ | hout
  · rw [genTick_one h₁] at h
    obtain ⟨_, -, h⟩ := advance_running h
    cases h
    exact advancesOne_of_step (by decide) h₁ rfl rfl
  · rw [genTick_two h₂] at h
    obtain ⟨_, -, h⟩ := advance_running h
    cases h
    exact advancesOne_of_step (by decide) h₂ rfl rfl
  · rw [genTick_three h₃] at h
    cases h
    exact advancesOne_of_step (by decide) h₃ rfl rfl
  · rw [genTick_four h₄] at h
    obtain ⟨_, -, h⟩ := advance_running h
    cases h
    exact advancesOne_of_step (by decide) h₄ rfl rfl
  · exact genTick_running_five h₅ h
  · rw [genTick_six h₆] at h
    cases h
  · rw [genTick_outside hout] at h
    cases h

theorem tcodeTick_running (h : tcodeTick s = .running t) :
    t.scratch.step = s.scratch.step ∧ t.scratch.rnd = s.scratch.rnd + 1 ∧ t.scratch.rnd ≤ 7 := by
  by_cases h₀ : s.scratch.rnd = 0
  · rw [tcodeTick_zero h₀] at h
    cases h
  · by_cases h₇ : s.scratch.rnd = 7
    · rw [tcodeTick_seven h₇] at h
      cases h
    · rw [tcodeTick_round h₀ h₇] at h
      exact tcTick_running h

end Counters

section Reset

/-- The two states differ only in what a reset clears: a reset leads from both to one state (R220). -/
def SameAfterReset (s t : State) : Prop := applyReset t = applyReset s

variable {s u : State}

theorem sameAfterReset_advance {α : Type} {m : Run α} {g : α → State → Tick} (hu : SameAfterReset s u)
    (hg : ∀ v t, SameAfterReset s t → SameAfterReset s (g v t).state) : SameAfterReset s (advance u m g).state := by
  cases hm : m.out with
  | error e => rw [advance, hm]; exact hu
  | ok v => rw [advance, hm]; exact hg v _ hu

theorem sameAfterReset_tcStart (v : Bytes) (x : Text) (hu : SameAfterReset s u) :
    SameAfterReset s (tcStart v x u).state :=
  sameAfterReset_advance hu fun _ _ ht => ht

theorem sameAfterReset_tcTick (k : Bytes) (hu : SameAfterReset s u) : SameAfterReset s (tcTick k u).state := by
  rw [tcTick]
  exact sameAfterReset_advance hu fun _ _ ht => sameAfterReset_advance ht fun _ _ ht' => ht'

theorem sameAfterReset_genStart (s : State) : SameAfterReset s (genStart s).state :=
  sameAfterReset_advance (show SameAfterReset s (begin s) from rfl) fun _ _ ht => ht

theorem sameAfterReset_tcodeStart (s : State) : SameAfterReset s (tcodeStart s).state :=
  sameAfterReset_advance (show SameAfterReset s (begin s) from rfl) fun x _ ht => sameAfterReset_tcStart s.opa x ht

theorem sameAfterReset_genTick (hu : SameAfterReset s u) : SameAfterReset s (genTick u).state := by
  simp only [genTick]
  split
  case h_1 => exact sameAfterReset_advance hu fun _ _ ht => ht
  case h_2 => exact sameAfterReset_advance hu fun _ _ ht => ht
  case h_3 => exact hu
  case h_4 => exact sameAfterReset_advance hu fun _ _ ht => ht
  case h_5 =>
    split
    · exact sameAfterReset_tcStart _ _ hu
    · exact hu
    · exact sameAfterReset_tcTick _ hu
  case h_6 => exact hu
  case h_7 => exact hu

theorem sameAfterReset_tcodeTick (hu : SameAfterReset s u) : SameAfterReset s (tcodeTick u).state := by
  unfold tcodeTick
  split
  · exact hu
  · exact hu
  · exact sameAfterReset_tcTick _ hu

/-- What every tick keeps any number of ticks keeps. -/
theorem sameAfterReset_runTicks {f : State → Tick} (hf : ∀ u, SameAfterReset s u → SameAfterReset s (f u).state) :
    ∀ (n : Nat) (x : Tick), SameAfterReset s x.state → SameAfterReset s (runTicks f n x).state
  | 0, _, hx => hx
  | _ + 1, .over _, hx => hx
  | n + 1, .running u, hx => sameAfterReset_runTicks hf n (f u) (hf u hx)

end Reset

end Sys2Proof.Machine

namespace Sys2Proof.Proofs

open Sys2Proof.Machine

/-- Settles O47: step by step the ticks follow the derivation whole. -/
theorem genSequencerRefines : Obligations.GenSequencerRefines :=
  fun s => ⟨_, exec_eq .gen s, gen_endsAs s⟩

/-- Settles O48: round by round the ticks follow the time coder whole. -/
theorem tcodeSequencerRefines : Obligations.TcodeSequencerRefines :=
  fun s => ⟨_, exec_eq .tcode s, tcode_endsAs s⟩

/-- Settles O49: no tick touches what a reset keeps, and a reset clears what the ticks write. -/
theorem resetAbandonsCommand : Obligations.ResetAbandonsCommand := fun s n =>
  ⟨sameAfterReset_runTicks (fun _ => sameAfterReset_genTick) n _ (sameAfterReset_genStart s),
    sameAfterReset_runTicks (fun _ => sameAfterReset_tcodeTick) n _ (sameAfterReset_tcodeStart s)⟩

/-- Settles O58: each tick writes the counter that its step moves. -/
theorem countersOnlyAdvance : Obligations.CountersOnlyAdvance := fun _ _ =>
  ⟨genStart_running, genTick_running, tcodeStart_running, tcodeTick_running⟩

end Sys2Proof.Proofs

/-! The standard DES and the parity bits of its key (47_des_reference.md R181, R185). -/

namespace Sys2Proof.Machine

/-- `PC1` names the positions of the 64 key bits but for every eighth, the parity bits (R181). -/
theorem pc1_skips_parity : ∀ p ∈ pc1, (p - 1) / 8 < 8 ∧ (p - 1) % 8 < 7 := by
  decide

/-- A bit above the least significant one is a bit of the shifted byte. -/
theorem getLsbD_eq_of_ushiftRight_eq {x y : Byte} (h : x >>> 1 = y >>> 1) (j : Nat) :
    x.getLsbD (1 + j) = y.getLsbD (1 + j) := by
  rw [← BitVec.getLsbD_ushiftRight, ← BitVec.getLsbD_ushiftRight, h]

/-- A key bit at a position of `PC1` is no parity bit of its byte. -/
theorem bitAt_keyBits_congr {k k' : Bytes} (h : ∀ i, i < 8 → k.getD i 0 >>> 1 = k'.getD i 0 >>> 1) {p : Nat}
    (hp : p ∈ pc1) : bitAt (bitsOf k) p = bitAt (bitsOf k') p := by
  obtain ⟨hbyte, hbit⟩ := pc1_skips_parity p hp
  have hindex : p - 1 = 8 * ((p - 1) / 8) + (p - 1) % 8 := (Nat.div_add_mod _ 8).symm
  have hplace : 7 - (p - 1) % 8 = 1 + (6 - (p - 1) % 8) := by omega
  rw [bitAt, bitAt, hindex, bitsOf_getD _ _ _ (by omega), bitsOf_getD _ _ _ (by omega), hplace]
  exact getLsbD_eq_of_ushiftRight_eq (h _ hbyte) _

/-- The key schedule sees of the key only what `PC1` selects. -/
theorem keySchedule_congr {k k' : Bytes} (h : ∀ i, i < 8 → k.getD i 0 >>> 1 = k'.getD i 0 >>> 1) :
    keySchedule k = keySchedule k' := by
  have hselect : select pc1 (bitsOf k) = select pc1 (bitsOf k') :=
    List.map_congr_left fun _ hp => bitAt_keyBits_congr h hp
  rw [keySchedule, keySchedule, hselect]

end Sys2Proof.Machine

namespace Sys2Proof.Proofs

open Sys2Proof.Machine

/-- Settles O55: the key enters through its schedule alone, which does not see the parity bits. -/
theorem standardDesIgnoresParity : Obligations.StandardDesIgnoresParity := by
  intro k k' b _ _ hkeys
  rw [stdDesE, stdDesE, keySchedule_congr hkeys]

end Sys2Proof.Proofs
